-- ==== Sys2Proof/Word.lean ====
section
/-! DEFINITION. The word types of the engine (00_scope.md R8: every value is an unsigned bit vector of a stated width). -/

namespace Sys2Proof

/-- A 32-bit word: one branch of the working block, one key word. -/
abbrev Word := BitVec 32

/-- A 16-bit half-word: what the ARX primitive and the mixing layer work on. -/
abbrev Half := BitVec 16

/-- One byte of a block's 16-byte view. -/
abbrev Byte := BitVec 8

end Sys2Proof
end

