-- ==== Sys2Proof/Config.lean ====
section
/-! DEFINITION. What the spec fixes as a parameter (00_scope.md R3, R7) and the one value it leaves unspecified. -/

namespace Sys2Proof

/-- How sixteen bytes map to four words (10_state.md R33). -/
inductive ByteOrder where
  | little
  | big
deriving DecidableEq, Repr

/-- Words in a block (00_scope.md R3). -/
abbrev Config.words : Nat := 4

/-- Macro-steps of the main transform (00_scope.md R3). -/
abbrev Config.macroSteps : Nat := 8

/-- Rounds per macro-step per branch (00_scope.md R3). -/
abbrev Config.roundsPerStep : Nat := 4

/-- Round operations of the main transform, 8 x 4 x 4 (00_scope.md R3). -/
abbrev Config.mainOps : Nat := 128

/-- Words of the key schedule, 128 + 4 (00_scope.md R3, 20_memory.md R51). -/
abbrev Config.ksLen : Nat := 132

/-- Number of distinct non-idle values of `progress` (00_scope.md R3). -/
abbrev Config.totalSteps : Nat := 134

/-- Width of `progress` (00_scope.md R7, D4). -/
abbrev Config.progressWidth : Nat := 8

/-- Width of one presented command, `blk` and `cmd` together (30_encoding.md R82). -/
abbrev Config.commandBits : Nat := 131

/-- BYTE_ORDER, default little (00_scope.md R7, D8; log entry 10). -/
def Config.byteOrder : ByteOrder := .little

/-- A FREE VALUE (log entry 4): word `slot` of what the hardware reset number `draw` leaves in the data registers. The
spec: "unspecified: any value; a model must not assume zero" (10_state.md R31, DATA_RESET). It has no body, so no
proof can learn it. -/
opaque Config.resetWord (draw slot : Nat) : Word

end Sys2Proof
end

