-- ==== Sys2Proof/Syntax.lean ====
section
/-! DEFINITION. The instructions: one constructor per row of opcode_table.json (30_encoding.md R93), and what the
second decoding stage finds, a step with its fields (R84 to R86). -/

namespace Sys2Proof

/-- The rows of opcode_table.json: five commands, which the host presents, and twelve steps, which an ADVANCE performs.
Only LOAD has an operand (R82); a step's fields all come from `progress` (R86), so its constructor carries none. -/
inductive Instr where
  | nop
  | reset
  | load (blk : BitVec 128)
  | advanceEncrypt
  | advanceDecrypt
  | eIdle
  | eRound
  | eRoundL
  | eWhiten
  | eMaterialize
  | eTerminate
  | dIdle
  | dWhiten
  | dRound
  | dLinvRound
  | dMaterialize
  | dTerminate
deriving DecidableEq, Repr

/-- The direction of an ADVANCE, its bit `cmd[0]` (30_encoding.md R81). It is an operand, not state (R203). -/
inductive Direction where
  | encrypt
  | decrypt
deriving DecidableEq, Repr

/-- A step of the encryption direction with the fields R86 computes from `progress` (30_encoding.md R84). -/
inductive EncStep where
  | idle
  | round (k : Fin Config.mainOps)
  | roundL (k : Fin Config.mainOps)
  | whiten (i : Fin Config.words)
  | materialize
  | terminate
deriving DecidableEq, Repr

/-- A step of the decryption direction with the fields R86 computes from `progress` (30_encoding.md R85). -/
inductive DecStep where
  | idle
  | whiten (i : Fin Config.words)
  | round (k : Fin Config.mainOps)
  | linvRound (k : Fin Config.mainOps)
  | materialize
  | terminate
deriving DecidableEq, Repr

/-- The opcode-table row of an encryption step. -/
def EncStep.instr : EncStep → Instr
  | .idle => .eIdle
  | .round _ => .eRound
  | .roundL _ => .eRoundL
  | .whiten _ => .eWhiten
  | .materialize => .eMaterialize
  | .terminate => .eTerminate

/-- The opcode-table row of a decryption step. -/
def DecStep.instr : DecStep → Instr
  | .idle => .dIdle
  | .whiten _ => .dWhiten
  | .round _ => .dRound
  | .linvRound _ => .dLinvRound
  | .materialize => .dMaterialize
  | .terminate => .dTerminate

end Sys2Proof
end

