-- ==== Sys2Proof/WellFormed.lean ====
section
/-! DEFINITION. Which instructions the host can present, and at which `progress` a step row is selected. The
selectors are written from the rows of opcode_table.json (`dir`, `progress_min`, `progress_max`, `cond`), not from the
decoder, so that the two can be compared. -/

namespace Sys2Proof

/-- The five rows of format C0 and C1: what the command port can ask for (30_encoding.md R81). -/
def Instr.isCommand : Instr → Bool
  | .nop => true
  | .reset => true
  | .load _ => true
  | .advanceEncrypt => true
  | .advanceDecrypt => true
  | .eIdle => false
  | .eRound => false
  | .eRoundL => false
  | .eWhiten => false
  | .eMaterialize => false
  | .eTerminate => false
  | .dIdle => false
  | .dWhiten => false
  | .dRound => false
  | .dLinvRound => false
  | .dMaterialize => false
  | .dTerminate => false

/-- The direction whose ADVANCE command reaches a row: a step's `dir` field, a command's own direction. -/
def Instr.direction? : Instr → Option Direction
  | .nop => none
  | .reset => none
  | .load _ => none
  | .advanceEncrypt => some .encrypt
  | .advanceDecrypt => some .decrypt
  | .eIdle => some .encrypt
  | .eRound => some .encrypt
  | .eRoundL => some .encrypt
  | .eWhiten => some .encrypt
  | .eMaterialize => some .encrypt
  | .eTerminate => some .encrypt
  | .dIdle => some .decrypt
  | .dWhiten => some .decrypt
  | .dRound => some .decrypt
  | .dLinvRound => some .decrypt
  | .dMaterialize => some .decrypt
  | .dTerminate => some .decrypt

/-- `i` is an instruction an engine whose counter is `progress` can execute: a command always, a step row exactly where
its selector in opcode_table.json holds (30_encoding.md R84, R85, R93). -/
def Instr.wellFormedAt (progress : BitVec 8) (i : Instr) : Bool :=
  let p := progress.toNat
  match i with
  | .nop => true
  | .reset => true
  | .load _ => true
  | .advanceEncrypt => true
  | .advanceDecrypt => true
  | .eIdle => p == 0
  | .eRound => 1 ≤ p && p ≤ 128 && (p - 1) % 16 != 15
  | .eRoundL => 1 ≤ p && p ≤ 128 && (p - 1) % 16 == 15
  | .eWhiten => 129 ≤ p && p ≤ 132
  | .eMaterialize => p == 133
  | .eTerminate => p == 134
  | .dIdle => p == 0
  | .dWhiten => 1 ≤ p && p ≤ 4
  | .dRound => 5 ≤ p && p ≤ 132 && (132 - p) % 16 != 15
  | .dLinvRound => 5 ≤ p && p ≤ 132 && (132 - p) % 16 == 15
  | .dMaterialize => p == 133
  | .dTerminate => p == 134

end Sys2Proof
end

