-- ==== Sys2Proof/Decode.lean ====
section
/-! DEFINITION. Decoding in two stages (30_encoding.md R80), the encoder, and the host's entry `decodeTableWord`. -/

namespace Sys2Proof

/-- One presented command as one number: `cmd` in bits 2:0, `blk` in bits 130:3 (30_encoding.md R82). -/
abbrev CommandWord := BitVec Config.commandBits

/-- Why a command is not decoded. -/
inductive DecodeError where
  /-- Stage 1: one of the reserved codes 011, 110, 111 (30_encoding.md R88). -/
  | reservedCode (code : BitVec 3)
  /-- Stage 2: an ADVANCE at a reserved value of `progress`, 135..255 (30_encoding.md R89). -/
  | reservedProgress (progress : BitVec 8)
deriving DecidableEq, Repr

/-- `cmd[2:0]` of a presented command (30_encoding.md R82). -/
def cmdField (w : CommandWord) : BitVec 3 := w.extractLsb' 0 3

/-- `blk[127:0]` of a presented command (30_encoding.md R82). -/
def blkField (w : CommandWord) : BitVec 128 := w.extractLsb' 3 128

/-- Stage 1 (30_encoding.md R81, R88). `blk` is looked at for LOAD only (R82). Total: the reserved codes are rejected by
name. -/
def decode (w : CommandWord) : Except DecodeError Instr :=
  match cmdField w with
  | 0b000#3 => .ok .nop
  | 0b001#3 => .ok .reset
  | 0b010#3 => .ok (.load (blkField w))
  | 0b100#3 => .ok .advanceEncrypt
  | 0b101#3 => .ok .advanceDecrypt
  | code => .error (.reservedCode code)

/-- Stage 2 for ADVANCE_ENCRYPT (30_encoding.md R84 with the fields of R86). `none` is a reserved `progress` (R89). -/
def encStepAt (progress : BitVec 8) : Option EncStep :=
  let p := progress.toNat
  if p = 0 then some .idle
  else if h : p ≤ 128 then
    let k : Fin Config.mainOps := ⟨p - 1, by show p - 1 < 128; omega⟩
    if k.val % 16 = 15 then some (.roundL k) else some (.round k)
  else if h : p ≤ 132 then some (.whiten ⟨p - 129, by show p - 129 < 4; omega⟩)
  else if p = 133 then some .materialize
  else if p = 134 then some .terminate
  else none

/-- Stage 2 for ADVANCE_DECRYPT (30_encoding.md R85 with the fields of R86). `none` is a reserved `progress` (R89). -/
def decStepAt (progress : BitVec 8) : Option DecStep :=
  let p := progress.toNat
  if p = 0 then some .idle
  else if h : p ≤ 4 then some (.whiten ⟨p - 1, by show p - 1 < 4; omega⟩)
  else if p ≤ 132 then
    let k : Fin Config.mainOps := ⟨132 - p, by show 132 - p < 128; omega⟩
    if k.val % 16 = 15 then some (.linvRound k) else some (.round k)
  else if p = 133 then some .materialize
  else if p = 134 then some .terminate
  else none

/-- Both stages: what the command `w` makes an engine whose counter is `progress` do, an ADVANCE resolved to its step
row (30_encoding.md R80, R93). -/
def decodeAt (progress : BitVec 8) (w : CommandWord) : Except DecodeError Instr :=
  match decode w with
  | .ok .advanceEncrypt =>
    match encStepAt progress with
    | some st => .ok st.instr
    | none => .error (.reservedProgress progress)
  | .ok .advanceDecrypt =>
    match decStepAt progress with
    | some st => .ok st.instr
    | none => .error (.reservedProgress progress)
  | r => r

/-- The code `cmd[2:0]` of a row: a command's own (30_encoding.md R81), for a step its ADVANCE command's (R93). -/
def Instr.code : Instr → BitVec 3
  | .nop => 0b000#3
  | .reset => 0b001#3
  | .load _ => 0b010#3
  | .advanceEncrypt => 0b100#3
  | .advanceDecrypt => 0b101#3
  | .eIdle => 0b100#3
  | .eRound => 0b100#3
  | .eRoundL => 0b100#3
  | .eWhiten => 0b100#3
  | .eMaterialize => 0b100#3
  | .eTerminate => 0b100#3
  | .dIdle => 0b101#3
  | .dWhiten => 0b101#3
  | .dRound => 0b101#3
  | .dLinvRound => 0b101#3
  | .dMaterialize => 0b101#3
  | .dTerminate => 0b101#3

/-- What the host drives on `blk`: the block for LOAD; for every other command the port is ignored (30_encoding.md R82)
and the encoder drives zero. -/
def Instr.operand : Instr → BitVec 128
  | .load blk => blk
  | .nop => 0
  | .reset => 0
  | .advanceEncrypt => 0
  | .advanceDecrypt => 0
  | .eIdle => 0
  | .eRound => 0
  | .eRoundL => 0
  | .eWhiten => 0
  | .eMaterialize => 0
  | .eTerminate => 0
  | .dIdle => 0
  | .dWhiten => 0
  | .dRound => 0
  | .dLinvRound => 0
  | .dMaterialize => 0
  | .dTerminate => 0

/-- The word of an instruction (30_encoding.md R82). -/
def encode (i : Instr) : CommandWord := i.operand ++ i.code

/-- The instruction whose bits are `w`, `nbits` of them given and all above zero. A command is 131 bits; no command has
a bit above bit 130. -/
def decodeTableWord (nbits w : Nat) : Option Instr :=
  if w % 2 ^ nbits < 2 ^ Config.commandBits then
    (decode (BitVec.ofNat Config.commandBits (w % 2 ^ nbits))).toOption
  else
    none

end Sys2Proof
end

