-- ==== Sys2Proof/Machine/Memory.lean ====
section
/-! DEFINITION. The key-schedule space KS, the only thing the engine addresses (20_memory.md R50 to R53): 132 words of
32 bits, addressed by whole-word index, total on 0..131. It is a list of (index, word) cells in one canonical form. -/

namespace Sys2Proof.Machine

/-- The key schedule as listed cells; an unlisted index reads as `Memory.unlisted`. The space is word-addressed and has
no bytes (20_memory.md R51, R55), so a cell holds a word (log entry 5). -/
structure Memory where
  cells : List (Nat × Word)
deriving DecidableEq, Repr

/-- What an index that is not listed reads as: 0x00000000 (DESIGN CHOICE, unsafe, log entry 5: the spec gives the
schedule no content; it is "always an input"). -/
def Memory.unlisted : Word := 0x00000000#32

/-- The word at index `idx` among `cells`. -/
def Memory.lookup : List (Nat × Word) → Nat → Word
  | [], _ => Memory.unlisted
  | (a, v) :: rest, idx => if a = idx then v else Memory.lookup rest idx

/-- `KS[idx]`, that is `MemRead(idx, 4)` (20_memory.md R52): no side effect, no fault, defined on exactly 0..131. -/
def Memory.read (m : Memory) (idx : Fin Config.ksLen) : Word := Memory.lookup m.cells idx.val

/-- `cells` with index `idx` holding `v`, the canonical form kept. -/
def Memory.insertCell : List (Nat × Word) → Nat → Word → List (Nat × Word)
  | [], idx, v => if v = Memory.unlisted then [] else [(idx, v)]
  | (a, w) :: rest, idx, v =>
    if idx < a then
      if v = Memory.unlisted then (a, w) :: rest else (idx, v) :: (a, w) :: rest
    else if idx = a then
      if v = Memory.unlisted then rest else (idx, v) :: rest
    else (a, w) :: Memory.insertCell rest idx v

/-- The platform places `v` at index `idx`. Not an engine operation: the engine writes no memory (00_scope.md R10). -/
def Memory.write (m : Memory) (idx : Fin Config.ksLen) (v : Word) : Memory := ⟨Memory.insertCell m.cells idx.val v⟩

/-- Indices strictly rising from `lo` on, inside 0..131, and no word equal to the unlisted one. -/
def Memory.wfFrom (lo : Nat) : List (Nat × Word) → Bool
  | [] => true
  | (a, v) :: rest => decide (lo ≤ a) && decide (a < Config.ksLen) && decide (v ≠ Memory.unlisted) &&
      Memory.wfFrom (a + 1) rest

/-- The canonical form: equal schedules are equal data. -/
def Memory.wf (m : Memory) : Bool := Memory.wfFrom 0 m.cells

/-- The cells of a schedule given in order, `KS[lo], KS[lo + 1], ...`; words past index 131 have no place. -/
def Memory.cellsOf (lo : Nat) : List Word → List (Nat × Word)
  | [] => []
  | v :: rest =>
    if lo < Config.ksLen ∧ v ≠ Memory.unlisted then (lo, v) :: Memory.cellsOf (lo + 1) rest
    else Memory.cellsOf (lo + 1) rest

/-- The schedule whose words the platform gives in order from index 0 (70_reset_and_hazards.md R253). -/
def Memory.ofWords (ws : List Word) : Memory := ⟨Memory.cellsOf 0 ws⟩

end Sys2Proof.Machine
end

