-- ==== Sys2Proof/Machine/State.lean ====
section
/-! DEFINITION. The state of one engine (10_state.md R20 to R33), plain data, and its value after reset. -/

namespace Sys2Proof.Machine

/-- Why a run stops with a fault: never. No rule of the spec stops the engine. The spec's IllegalCommand and
IllegalProgress leave the state as it was and drive `fault` for one command (60_exceptions.md R223, R224, R226, R229), so
they are next states whose `result.faultCode` is not 00 (log entry 7). -/
inductive Fault where
deriving DecidableEq, Repr

/-- Why the model gives no next state. -/
inductive Refusal where
  /-- Raised by `exec`'s arm of an instruction that has no meaning yet; no arm is left so. Safe. -/
  | notModelled (mnemonic : String)
  /-- Raised by a step row's meaning at a `progress` where its selector does not hold (30_encoding.md R84, R85). No
  command can ask for this: an ADVANCE performs the step its `progress` selects. Safe (log entry 8). -/
  | stepNotSelected (mnemonic : String)
  /-- Raised by `provideKeySchedule` when the platform changes the schedule of a busy engine (20_memory.md R63: "A
  model should refuse such a run"). Safe (log entry 6). -/
  | keyScheduleChangedWhileBusy
deriving DecidableEq, Repr

/-- A 128-bit block as four words (10_state.md R21, R25, R33): word i is `w<i>`. -/
@[ext]
structure Block where
  w0 : Word
  w1 : Word
  w2 : Word
  w3 : Word
deriving DecidableEq, Repr

/-- The abnormal conditions of 60_exceptions.md R220. -/
inductive Condition where
  /-- LOAD while busy (R221): the recoverable one, not a fault. -/
  | loadRejected
  /-- A reserved command code (R223). -/
  | illegalCommand
  /-- An ADVANCE at `progress` in 135..255 (R224). -/
  | illegalProgress
deriving DecidableEq, Repr

/-- The result of a command (44_state_machine_commands.md R190): what the ports `accepted`, `done`, `fault_code` show in
its cycle. `fault` is `faultCode ≠ 00` (60_exceptions.md R226). -/
structure Result where
  accepted : Bool
  done : Bool
  faultCode : BitVec 2
deriving DecidableEq, Repr

/-- What the host drives at one clock edge (44_state_machine_commands.md R205). -/
structure PortInput where
  rst : Bool
  cmd : BitVec 3
  blk : BitVec 128
deriving DecidableEq, Repr

/-- One engine. `progress`, `x`, `out` are the whole architectural state (10_state.md R20); `ks` is the configuration
every step reads and none writes (R26); `result` shows the output ports of the last command, which the hardware does not
store (R27, log entry 2); `inputs` is what the host will drive, one entry a clock edge (log entry 1); `resetDraws` counts
the draws of unspecified reset data (log entry 4). -/
structure State where
  progress : BitVec 8
  x : Block
  out : Block
  ks : Memory
  result : Result
  inputs : List PortInput
  resetDraws : Nat
deriving DecidableEq, Repr

/-- Right after reset (10_state.md R31, 70_reset_and_hazards.md R250, R252): idle. `x` and `out` are unspecified there; the
model names zero (DESIGN CHOICE, unsafe, log entry 3), which "an implementation that zeroes them conforms" allows (D6).
Nothing is listed in the schedule and nothing is presented. -/
def State.reset : State where
  progress := 0
  x := ⟨0, 0, 0, 0⟩
  out := ⟨0, 0, 0, 0⟩
  ks := ⟨[]⟩
  result := ⟨false, false, 0b00#2⟩
  inputs := []
  resetDraws := 0

end Sys2Proof.Machine
end

