-- ==== Sys2Proof/Machine/Operands.lean ====
section
/-! DEFINITION. Every operand form: arithmetic on half-words (00_scope.md R9), slices (R8), the word and half-word views
of a block (10_state.md R21, R22), LOAD's block (30_encoding.md R83), the 16-byte view (10_state.md R33), and the fields
and key index a step takes from `progress` (30_encoding.md R86, 20_memory.md R53). -/

namespace Sys2Proof.Machine

/-- Sum modulo 2^16, carry lost (00_scope.md R9, 40_arx_primitive.md R114). -/
def add16 (a b : Half) : Half := a + b

/-- Difference modulo 2^16, borrow lost (00_scope.md R9, 40_arx_primitive.md R114). -/
def sub16 (a b : Half) : Half := a - b

/-- Rotation left within 16 bits (00_scope.md R9). -/
def rotl16 (v : Half) (n : Nat) : Half := v.rotateLeft n

/-- `v[15:0]` (00_scope.md R8). -/
def lo16 (v : Word) : Half := v.extractLsb' 0 16

/-- `v[31:16]` (00_scope.md R8). -/
def hi16 (v : Word) : Half := v.extractLsb' 16 16

/-- `cat(hi, lo)`, `hi` in the high bits (00_scope.md R8). -/
def cat (hi lo : Half) : Word := hi ++ lo

/-- Word i of a block, `x[i]` or `out[i]` (00_scope.md R10). -/
def Block.get (b : Block) (i : Fin Config.words) : Word :=
  match i with
  | 0 => b.w0
  | 1 => b.w1
  | 2 => b.w2
  | 3 => b.w3

/-- `x[i] <- v`: the other words keep their value (00_scope.md R10). -/
def Block.set (b : Block) (i : Fin Config.words) (v : Word) : Block :=
  match i with
  | 0 => { b with w0 := v }
  | 1 => { b with w1 := v }
  | 2 => { b with w2 := v }
  | 3 => { b with w3 := v }

/-- The word that holds half-word n: `h[2j]` and `h[2j+1]` are in word j (10_state.md R22). -/
def wordOfHalf (n : Fin 8) : Fin Config.words := ⟨n.val / 2, by have h : n.val < 8 := n.isLt; show n.val / 2 < 4; omega⟩

/-- `h[n]` (10_state.md R22): the even half-words are low halves. -/
def Block.half (b : Block) (n : Fin 8) : Half :=
  if n.val % 2 = 0 then lo16 (b.get (wordOfHalf n)) else hi16 (b.get (wordOfHalf n))

/-- `h[n] <- v` (00_scope.md R10): the other half of the word keeps its value. -/
def Block.setHalf (b : Block) (n : Fin 8) (v : Half) : Block :=
  let w := b.get (wordOfHalf n)
  b.set (wordOfHalf n) (if n.val % 2 = 0 then cat (hi16 w) v else cat v (lo16 w))

/-- The block whose half-words are `h[0]` to `h[7]` (10_state.md R22). -/
def Block.ofHalves (h0 h1 h2 h3 h4 h5 h6 h7 : Half) : Block := ⟨cat h1 h0, cat h3 h2, cat h5 h4, cat h7 h6⟩

/-- Word-wise XOR of two blocks (the `xor` of 41_linear_layer.md R134). -/
def Block.xor (a b : Block) : Block := ⟨a.w0 ^^^ b.w0, a.w1 ^^^ b.w1, a.w2 ^^^ b.w2, a.w3 ^^^ b.w3⟩

/-- The four words of `blk`: word i is `blk[32i+31 : 32i]` (30_encoding.md R83). -/
def Block.ofBits (blk : BitVec 128) : Block :=
  ⟨blk.extractLsb' 0 32, blk.extractLsb' 32 32, blk.extractLsb' 64 32, blk.extractLsb' 96 32⟩

/-- A block on a 128-bit port, word i at bits 32i+31:32i (44_state_machine_commands.md R205, D9). -/
def Block.toBits (b : Block) : BitVec 128 := b.w3 ++ b.w2 ++ b.w1 ++ b.w0

/-- One word from its four bytes in address order (10_state.md R33). -/
def wordOfBytes (o : ByteOrder) (b0 b1 b2 b3 : Byte) : Word :=
  match o with
  | .little => b3 ++ b2 ++ b1 ++ b0
  | .big => b0 ++ b1 ++ b2 ++ b3

/-- Byte n, in address order, of a word (10_state.md R33). -/
def byteOfWord (o : ByteOrder) (w : Word) (n : Fin 4) : Byte :=
  match o with
  | .little => w.extractLsb' (8 * n.val) 8
  | .big => w.extractLsb' (8 * (3 - n.val)) 8

/-- The block whose sixteen bytes are `B[0]` to `B[15]` (10_state.md R33, 30_encoding.md R83). -/
def Block.ofBytes (o : ByteOrder) (B : Vector Byte 16) : Block :=
  ⟨wordOfBytes o B[0] B[1] B[2] B[3], wordOfBytes o B[4] B[5] B[6] B[7],
   wordOfBytes o B[8] B[9] B[10] B[11], wordOfBytes o B[12] B[13] B[14] B[15]⟩

/-- The sixteen bytes of a block (10_state.md R33). -/
def Block.toBytes (o : ByteOrder) (b : Block) : Vector Byte 16 :=
  #v[byteOfWord o b.w0 0, byteOfWord o b.w0 1, byteOfWord o b.w0 2, byteOfWord o b.w0 3,
     byteOfWord o b.w1 0, byteOfWord o b.w1 1, byteOfWord o b.w1 2, byteOfWord o b.w1 3,
     byteOfWord o b.w2 0, byteOfWord o b.w2 1, byteOfWord o b.w2 2, byteOfWord o b.w2 3,
     byteOfWord o b.w3 0, byteOfWord o b.w3 1, byteOfWord o b.w3 2, byteOfWord o b.w3 3]

/-- `branch = (k div 4) mod 4` (30_encoding.md R86). -/
def branch (k : Fin Config.mainOps) : Fin Config.words := ⟨k.val / 4 % 4, Nat.mod_lt _ (by decide)⟩

/-- `round = k mod 4`, informative (30_encoding.md R86). -/
def roundOf (k : Fin Config.mainOps) : Fin Config.roundsPerStep := ⟨k.val % 4, Nat.mod_lt _ (by decide)⟩

/-- `mstep = k div 16`, informative (30_encoding.md R86). -/
def macroStepOf (k : Fin Config.mainOps) : Fin Config.macroSteps :=
  ⟨k.val / 16, by have h : k.val < 128 := k.isLt; show k.val / 16 < 8; omega⟩

/-- `mix = (k mod 16 == 15)` (30_encoding.md R86). -/
def mixes (k : Fin Config.mainOps) : Bool := k.val % 16 == 15

/-- The round operation of macro-step s, branch b, round r: `k = 16 s + 4 b + r` (20_memory.md R51). -/
def roundIndex (s : Fin Config.macroSteps) (b : Fin Config.words) (r : Fin Config.roundsPerStep) : Fin Config.mainOps :=
  ⟨16 * s.val + 4 * b.val + r.val, by
    have h1 : s.val < 8 := s.isLt
    have h2 : b.val < 4 := b.isLt
    have h3 : r.val < 4 := r.isLt
    show 16 * s.val + 4 * b.val + r.val < 128
    omega⟩

/-- The index of round operation k's key word: k itself (20_memory.md R51, R53). -/
def roundKeyIndex (k : Fin Config.mainOps) : Fin Config.ksLen :=
  ⟨k.val, by have h : k.val < 128 := k.isLt; show k.val < 132; omega⟩

/-- The index of word i's whitening word: 128 + i (20_memory.md R51, R53). -/
def whitenKeyIndex (i : Fin Config.words) : Fin Config.ksLen :=
  ⟨128 + i.val, by have h : i.val < 4 := i.isLt; show 128 + i.val < 132; omega⟩

/-- The key word an encryption step reads (20_memory.md R53). -/
def encKeyIndex : EncStep → Option (Fin Config.ksLen)
  | .idle => none
  | .round k => some (roundKeyIndex k)
  | .roundL k => some (roundKeyIndex k)
  | .whiten i => some (whitenKeyIndex i)
  | .materialize => none
  | .terminate => none

/-- The key word a decryption step reads (20_memory.md R53). -/
def decKeyIndex : DecStep → Option (Fin Config.ksLen)
  | .idle => none
  | .whiten i => some (whitenKeyIndex i)
  | .round k => some (roundKeyIndex k)
  | .linvRound k => some (roundKeyIndex k)
  | .materialize => none
  | .terminate => none

/-- The key-schedule index an ADVANCE of direction `d` reads at `progress`, if any (20_memory.md R53). -/
def keyIndexAt (d : Direction) (progress : BitVec 8) : Option (Fin Config.ksLen) :=
  match d with
  | .encrypt => (encStepAt progress).bind encKeyIndex
  | .decrypt => (decStepAt progress).bind decKeyIndex

end Sys2Proof.Machine
end

