-- ==== Sys2Proof/Machine/Primitive.lean ====
section
/-! DEFINITION. The combinational primitives: the ARX round primitive A and A_INV (40_arx_primitive.md) and the linear
mixing layer L and L_INV (41_linear_layer.md). -/

namespace Sys2Proof.Machine

/-- `A(left, right)`, the source's four steps in order (40_arx_primitive.md R111). -/
def arx (left right : Half) : Half × Half :=
  let l1 := rotl16 left 9
  let l2 := add16 l1 right
  let r1 := rotl16 right 2
  let r2 := r1 ^^^ l2
  (l2, r2)

/-- `A_INV(left, right)`, the source's four steps in order (40_arx_primitive.md R112). -/
def arxInv (left right : Half) : Half × Half :=
  let r1 := right ^^^ left
  let r2 := rotl16 r1 14
  let l1 := sub16 left r2
  let l2 := rotl16 l1 7
  (l2, r2)

/-- `L` on the eight half-words of a block (41_linear_layer.md R131): mix, then the four swaps. -/
def linear (b : Block) : Block :=
  let t := rotl16 (b.half 0 ^^^ b.half 1 ^^^ b.half 2 ^^^ b.half 3) 8
  let m4 := b.half 4 ^^^ b.half 2 ^^^ t
  let m5 := b.half 5 ^^^ b.half 1 ^^^ t
  let m6 := b.half 6 ^^^ b.half 0 ^^^ t
  let m7 := b.half 7 ^^^ b.half 3 ^^^ t
  Block.ofHalves m4 m5 m6 m7 (b.half 0) (b.half 1) (b.half 2) (b.half 3)

/-- `L_INV` on the eight half-words of a block (41_linear_layer.md R132): the four swaps, then mix. -/
def linearInv (b : Block) : Block :=
  let c := Block.ofHalves (b.half 4) (b.half 5) (b.half 6) (b.half 7) (b.half 0) (b.half 1) (b.half 2) (b.half 3)
  let t := rotl16 (c.half 0 ^^^ c.half 1 ^^^ c.half 2 ^^^ c.half 3) 8
  Block.ofHalves (c.half 0) (c.half 1) (c.half 2) (c.half 3)
    (c.half 4 ^^^ c.half 2 ^^^ t) (c.half 5 ^^^ c.half 1 ^^^ t)
    (c.half 6 ^^^ c.half 0 ^^^ t) (c.half 7 ^^^ c.half 3 ^^^ t)

end Sys2Proof.Machine
end

