-- ==== Sys2Proof/Machine/Cipher.lean ====
section
/-! DEFINITION. What one step does to the working block, as a map on blocks, and the whole-block functions ENC
(42_round_engine_encrypt.md R157) and DEC (43_round_engine_decrypt.md R177). -/

namespace Sys2Proof.Machine

/-- A round operation on branch `b` (42_round_engine_encrypt.md R151): key XOR, then `A` on (low, high). -/
def roundBlock (b : Fin Config.words) (key : Word) (x : Block) : Block :=
  let v := x.get b ^^^ key
  let (l, r) := arx (lo16 v) (hi16 v)
  x.set b (cat r l)

/-- An inverse round operation on branch `b` (43_round_engine_decrypt.md R172): `A_INV` on (low, high), then key XOR. -/
def unroundBlock (b : Fin Config.words) (key : Word) (x : Block) : Block :=
  let (l, r) := arxInv (lo16 (x.get b)) (hi16 (x.get b))
  x.set b (cat r l ^^^ key)

/-- Whitening and de-whitening of word i (42_round_engine_encrypt.md R153, 43_round_engine_decrypt.md R171). -/
def whitenBlock (i : Fin Config.words) (key : Word) (x : Block) : Block := x.set i (x.get i ^^^ key)

/-- The branches or rounds 0 to 3 in ascending order. -/
def upTo4 : List (Fin 4) := [0, 1, 2, 3]

/-- The branches or rounds 3 down to 0. -/
def downFrom4 : List (Fin 4) := [3, 2, 1, 0]

/-- The macro-steps 0 to 7 in ascending order. -/
def upTo8 : List (Fin 8) := [0, 1, 2, 3, 4, 5, 6, 7]

/-- The macro-steps 7 down to 0. -/
def downFrom8 : List (Fin 8) := [7, 6, 5, 4, 3, 2, 1, 0]

/-- The sixteen round operations of macro-step `s`, then `L` (42_round_engine_encrypt.md R157). -/
def macroStep (ks : Memory) (x : Block) (s : Fin 8) : Block :=
  linear (upTo4.foldl (fun x b =>
    upTo4.foldl (fun x r => roundBlock b (ks.read (roundKeyIndex (roundIndex s b r))) x) x) x)

/-- `L_INV`, then the sixteen inverse round operations of macro-step `s` (43_round_engine_decrypt.md R177). -/
def macroStepInv (ks : Memory) (x : Block) (s : Fin 8) : Block :=
  downFrom4.foldl (fun x b =>
    downFrom4.foldl (fun x r => unroundBlock b (ks.read (roundKeyIndex (roundIndex s b r))) x) x) (linearInv x)

/-- The four whitening operations, word 0 first (42_round_engine_encrypt.md R157, 43_round_engine_decrypt.md R177). -/
def whitenAll (ks : Memory) (x : Block) : Block :=
  upTo4.foldl (fun x i => whitenBlock i (ks.read (whitenKeyIndex i)) x) x

/-- `ENC(KS, P)` (42_round_engine_encrypt.md R157). -/
def enc (ks : Memory) (P : Block) : Block := whitenAll ks (upTo8.foldl (macroStep ks) P)

/-- `DEC(KS, C)` (43_round_engine_decrypt.md R177). -/
def dec (ks : Memory) (C : Block) : Block := downFrom8.foldl (macroStepInv ks) (whitenAll ks C)

end Sys2Proof.Machine
end

