-- ==== Sys2Proof/Machine/Flags.lean ====
section
/-! DEFINITION. The signals that play the role of flags (10_state.md R27): the engine stores none, and no arithmetic sets
any. Each is computed here, once. -/

namespace Sys2Proof.Machine

/-- Every command that is neither an accepted LOAD, nor a terminal step, nor a fault (10_state.md R27): `Pending`. -/
def Result.pending : Result := ⟨false, false, 0b00#2⟩

/-- An accepted LOAD (44_state_machine_commands.md R193). -/
def Result.loaded : Result := ⟨true, false, 0b00#2⟩

/-- The terminal step (44_state_machine_commands.md R198): `Completed(out)`. -/
def Result.completed : Result := ⟨false, true, 0b00#2⟩

/-- The cause codes of 60_exceptions.md R226. LoadRejected is reported by `accepted = 0` alone. -/
def faultCodeOf : Condition → BitVec 2
  | .loadRejected => 0b00#2
  | .illegalCommand => 0b01#2
  | .illegalProgress => 0b10#2

/-- How a condition is reported (60_exceptions.md R226). -/
def resultOf (c : Condition) : Result := ⟨false, false, faultCodeOf c⟩

/-- The port `fault` (60_exceptions.md R226). -/
def Result.fault (r : Result) : Bool := r.faultCode != 0b00#2

/-- The port `busy`: `progress != 0` (10_state.md R27). -/
def State.busy (s : State) : Bool := s.progress != 0

end Sys2Proof.Machine
end

