-- ==== Sys2Proof/Machine/Ops.lean ====
section
/-! DEFINITION. The named operations over the state: the writes of the matrix of 10_state.md R29, the report of a
condition (60_exceptions.md), hardware reset (70_reset_and_hazards.md R250), the command port, and the operations the two
directions share. -/

namespace Sys2Proof.Machine

/-- `progress <- p` (00_scope.md R10). -/
def State.setProgress (s : State) (p : BitVec 8) : State := { s with progress := p }

/-- A write of the whole working block. -/
def State.setX (s : State) (b : Block) : State := { s with x := b }

/-- A write of the whole output buffer (10_state.md R25). -/
def State.setOut (s : State) (b : Block) : State := { s with out := b }

/-- The output ports of this command (44_state_machine_commands.md R190). -/
def State.respond (s : State) (r : Result) : State := { s with result := r }

/-- A CONDITION IS RAISED: the one shared operation of 60_exceptions.md. No state is saved, masked or redirected, nothing
is written, and the condition shows on the ports of this command only (R220, R221, R223, R224, R226, R229). There is no
return from it: the next command finds the state as it was (R230). -/
def raise (c : Condition) (s : State) : State := s.respond (resultOf c)

/-- What the unspecified draw number `draw` leaves in the working block (10_state.md R31; log entry 4). -/
def resetX (draw : Nat) : Block :=
  ⟨Config.resetWord draw 0, Config.resetWord draw 1, Config.resetWord draw 2, Config.resetWord draw 3⟩

/-- What the unspecified draw number `draw` leaves in the output buffer (10_state.md R31; log entry 4). -/
def resetOut (draw : Nat) : Block :=
  ⟨Config.resetWord draw 4, Config.resetWord draw 5, Config.resetWord draw 6, Config.resetWord draw 7⟩

/-- Hardware reset (70_reset_and_hazards.md R250, R252): idle, no result bit; `x` and `out` become FREE VALUES that may
differ from reset to reset; the key schedule is not affected. -/
def hardwareReset (s : State) : State :=
  { s with
    progress := 0
    x := resetX s.resetDraws
    out := resetOut s.resetDraws
    result := Result.pending
    resetDraws := s.resetDraws + 1 }

/-- The port when the host makes no call: the code `000` is the "issue nothing" value (D2, 44_state_machine_commands.md
R191; log entry 1). -/
def PortInput.quiet : PortInput := ⟨false, 0b000#3, 0⟩

/-- What stands on the port at this clock edge. -/
def State.nextInput (s : State) : PortInput := s.inputs.headD PortInput.quiet

/-- The port moves on to what the host drives at the next clock edge. -/
def State.popInput (s : State) : State := { s with inputs := s.inputs.tail }

/-- `blk` and `cmd` of the port as one command word (30_encoding.md R82). -/
def PortInput.word (p : PortInput) : CommandWord := p.blk ++ p.cmd

/-- The port that shows command word `w`, with `rst` low. -/
def PortInput.ofWord (w : CommandWord) : PortInput := ⟨false, cmdField w, blkField w⟩

/-- The host drives `i` at the next clock edge. -/
def State.present (s : State) (p : PortInput) : State := { s with inputs := p :: s.inputs }

/-- What the port's input makes the engine do in one clock edge, given the meaning of a decoded command: `rst` wins over
any command (60_exceptions.md R228), a reserved code raises IllegalCommand (R223). -/
def clockEdge (meaning : Instr → State → Host.Outcome State Fault Refusal) (p : PortInput) (s : State) :
    Host.Outcome State Fault Refusal :=
  if p.rst then .next (hardwareReset s)
  else
    match decode p.word with
    | .ok i => meaning i s
    | .error _ => .next (raise .illegalCommand s)

/-- The platform gives the engine another schedule (70_reset_and_hazards.md R253, R254): allowed while the engine is
idle, refused while it is busy (20_memory.md R63, U3). It is no step of the engine. -/
def provideKeySchedule (m : Memory) (s : State) : Host.Outcome State Fault Refusal :=
  if s.busy then .refused .keyScheduleChangedWhileBusy else .next { s with ks := m }

/-- A step that writes the working block, moves `progress` by one and reports `Pending`. -/
def workStep (x : Block) (s : State) : State := ((s.setX x).setProgress (s.progress + 1)).respond Result.pending

/-- The copy of a materialize step (42_round_engine_encrypt.md R154): the whole of `x` to `out`, `progress` to 134. -/
def materialize (s : State) : State := ((s.setOut s.x).setProgress 134).respond Result.pending

/-- The terminal step (42_round_engine_encrypt.md R155): `progress` to 0 first, then the completion. -/
def terminate (s : State) : State := (s.setProgress 0).respond Result.completed

/-- The idle step (42_round_engine_encrypt.md R156): nothing is written; `done` is 0. -/
def idle (s : State) : State := s.respond Result.pending

/-- A round step without mixing, forward (42_round_engine_encrypt.md R151). -/
def encRound (k : Fin Config.mainOps) (s : State) : State :=
  workStep (roundBlock (branch k) (s.ks.read (roundKeyIndex k)) s.x) s

/-- A round step with mixing, forward: the round operation, then `L` (42_round_engine_encrypt.md R152). -/
def encRoundL (k : Fin Config.mainOps) (s : State) : State :=
  workStep (linear (roundBlock (branch k) (s.ks.read (roundKeyIndex k)) s.x)) s

/-- A whitening or de-whitening step (42_round_engine_encrypt.md R153, 43_round_engine_decrypt.md R171). -/
def whiten (i : Fin Config.words) (s : State) : State :=
  workStep (whitenBlock i (s.ks.read (whitenKeyIndex i)) s.x) s

/-- An inverse round step without mixing (43_round_engine_decrypt.md R172). -/
def decRound (k : Fin Config.mainOps) (s : State) : State :=
  workStep (unroundBlock (branch k) (s.ks.read (roundKeyIndex k)) s.x) s

/-- An inverse round step with mixing: `L_INV`, then the inverse round operation (43_round_engine_decrypt.md R173). -/
def decLinvRound (k : Fin Config.mainOps) (s : State) : State :=
  workStep (unroundBlock (branch k) (s.ks.read (roundKeyIndex k)) (linearInv s.x)) s

end Sys2Proof.Machine
end

