-- ==== Sys2Proof/Machine/Commands.lean ====
section
/-! DEFINITION. The five commands (44_state_machine_commands.md R191 to R195). -/

namespace Sys2Proof.Machine

/-- NOP (44_state_machine_commands.md R191). -/
def execNop (s : State) : Host.Outcome State Fault Refusal := .next (s.respond Result.pending)

/-- RESET: only `progress` is written (44_state_machine_commands.md R192, 70_reset_and_hazards.md R251). -/
def execReset (s : State) : Host.Outcome State Fault Refusal := .next ((s.setProgress 0).respond Result.pending)

/-- LOAD (44_state_machine_commands.md R193): accepted exactly when idle, else LoadRejected (60_exceptions.md R221). -/
def execLoad (blk : BitVec 128) (s : State) : Host.Outcome State Fault Refusal :=
  if s.progress = 0 then .next (((s.setX (Block.ofBits blk)).setProgress 1).respond Result.loaded)
  else .next (raise .loadRejected s)

/-- ADVANCE_ENCRYPT (44_state_machine_commands.md R194): the one step its `progress` selects, or IllegalProgress. -/
def execAdvanceEncrypt (s : State) : Host.Outcome State Fault Refusal :=
  match encStepAt s.progress with
  | some .idle => .next (idle s)
  | some (.round k) => .next (encRound k s)
  | some (.roundL k) => .next (encRoundL k s)
  | some (.whiten i) => .next (whiten i s)
  | some .materialize => .next (materialize s)
  | some .terminate => .next (terminate s)
  | none => .next (raise .illegalProgress s)

/-- ADVANCE_DECRYPT (44_state_machine_commands.md R195): the one step its `progress` selects, or IllegalProgress. -/
def execAdvanceDecrypt (s : State) : Host.Outcome State Fault Refusal :=
  match decStepAt s.progress with
  | some .idle => .next (idle s)
  | some (.whiten i) => .next (whiten i s)
  | some (.round k) => .next (decRound k s)
  | some (.linvRound k) => .next (decLinvRound k s)
  | some .materialize => .next (materialize s)
  | some .terminate => .next (terminate s)
  | none => .next (raise .illegalProgress s)

end Sys2Proof.Machine
end

