-- ==== Sys2Proof/Machine/Decrypt.lean ====
section
/-! DEFINITION. The steps of the decryption direction (43_round_engine_decrypt.md R171 to R176), one meaning a row. A
row's meaning runs where its selector holds (30_encoding.md R85); elsewhere no command can ask for it (log entry 8). -/

namespace Sys2Proof.Machine

/-- D_IDLE (43_round_engine_decrypt.md R176). -/
def execDIdle (s : State) : Host.Outcome State Fault Refusal :=
  match decStepAt s.progress with
  | some .idle => .next (idle s)
  | _ => .refused (.stepNotSelected "D_IDLE")

/-- D_WHITEN (43_round_engine_decrypt.md R171). -/
def execDWhiten (s : State) : Host.Outcome State Fault Refusal :=
  match decStepAt s.progress with
  | some (.whiten i) => .next (whiten i s)
  | _ => .refused (.stepNotSelected "D_WHITEN")

/-- D_ROUND (43_round_engine_decrypt.md R172). -/
def execDRound (s : State) : Host.Outcome State Fault Refusal :=
  match decStepAt s.progress with
  | some (.round k) => .next (decRound k s)
  | _ => .refused (.stepNotSelected "D_ROUND")

/-- D_LINV_ROUND (43_round_engine_decrypt.md R173). -/
def execDLinvRound (s : State) : Host.Outcome State Fault Refusal :=
  match decStepAt s.progress with
  | some (.linvRound k) => .next (decLinvRound k s)
  | _ => .refused (.stepNotSelected "D_LINV_ROUND")

/-- D_MATERIALIZE (43_round_engine_decrypt.md R174). -/
def execDMaterialize (s : State) : Host.Outcome State Fault Refusal :=
  match decStepAt s.progress with
  | some .materialize => .next (materialize s)
  | _ => .refused (.stepNotSelected "D_MATERIALIZE")

/-- D_TERMINATE (43_round_engine_decrypt.md R175). -/
def execDTerminate (s : State) : Host.Outcome State Fault Refusal :=
  match decStepAt s.progress with
  | some .terminate => .next (terminate s)
  | _ => .refused (.stepNotSelected "D_TERMINATE")

end Sys2Proof.Machine
end

