-- ==== Sys2Proof/Machine/Encrypt.lean ====
section
/-! DEFINITION. The steps of the encryption direction (42_round_engine_encrypt.md R151 to R156), one meaning a row. A
row's meaning runs where its selector holds (30_encoding.md R84); elsewhere no command can ask for it (log entry 8). -/

namespace Sys2Proof.Machine

/-- E_IDLE (42_round_engine_encrypt.md R156). -/
def execEIdle (s : State) : Host.Outcome State Fault Refusal :=
  match encStepAt s.progress with
  | some .idle => .next (idle s)
  | _ => .refused (.stepNotSelected "E_IDLE")

/-- E_ROUND (42_round_engine_encrypt.md R151). -/
def execERound (s : State) : Host.Outcome State Fault Refusal :=
  match encStepAt s.progress with
  | some (.round k) => .next (encRound k s)
  | _ => .refused (.stepNotSelected "E_ROUND")

/-- E_ROUND_L (42_round_engine_encrypt.md R152). -/
def execERoundL (s : State) : Host.Outcome State Fault Refusal :=
  match encStepAt s.progress with
  | some (.roundL k) => .next (encRoundL k s)
  | _ => .refused (.stepNotSelected "E_ROUND_L")

/-- E_WHITEN (42_round_engine_encrypt.md R153). -/
def execEWhiten (s : State) : Host.Outcome State Fault Refusal :=
  match encStepAt s.progress with
  | some (.whiten i) => .next (whiten i s)
  | _ => .refused (.stepNotSelected "E_WHITEN")

/-- E_MATERIALIZE (42_round_engine_encrypt.md R154). -/
def execEMaterialize (s : State) : Host.Outcome State Fault Refusal :=
  match encStepAt s.progress with
  | some .materialize => .next (materialize s)
  | _ => .refused (.stepNotSelected "E_MATERIALIZE")

/-- E_TERMINATE (42_round_engine_encrypt.md R155). -/
def execETerminate (s : State) : Host.Outcome State Fault Refusal :=
  match encStepAt s.progress with
  | some .terminate => .next (terminate s)
  | _ => .refused (.stepNotSelected "E_TERMINATE")

end Sys2Proof.Machine
end

