-- ==== Sys2Proof/Machine/Dispatch.lean ====
section
/-! DEFINITION. One arm per row of opcode_table.json. -/

namespace Sys2Proof.Machine

/-- The meaning of an instruction (44_state_machine_commands.md R190). -/
def exec (i : Instr) (s : State) : Host.Outcome State Fault Refusal :=
  match i with
  | .nop => Sys2Proof.Machine.execNop s
  | .reset => Sys2Proof.Machine.execReset s
  | .load blk => Sys2Proof.Machine.execLoad blk s
  | .advanceEncrypt => Sys2Proof.Machine.execAdvanceEncrypt s
  | .advanceDecrypt => Sys2Proof.Machine.execAdvanceDecrypt s
  | .eIdle => Sys2Proof.Machine.execEIdle s
  | .eRound => Sys2Proof.Machine.execERound s
  | .eRoundL => Sys2Proof.Machine.execERoundL s
  | .eWhiten => Sys2Proof.Machine.execEWhiten s
  | .eMaterialize => Sys2Proof.Machine.execEMaterialize s
  | .eTerminate => Sys2Proof.Machine.execETerminate s
  | .dIdle => Sys2Proof.Machine.execDIdle s
  | .dWhiten => Sys2Proof.Machine.execDWhiten s
  | .dRound => Sys2Proof.Machine.execDRound s
  | .dLinvRound => Sys2Proof.Machine.execDLinvRound s
  | .dMaterialize => Sys2Proof.Machine.execDMaterialize s
  | .dTerminate => Sys2Proof.Machine.execDTerminate s

end Sys2Proof.Machine
end

