-- ==== Sys2Proof/Machine/Step.lean ====
section
/-! DEFINITION. One step of the machine is one clock edge (D1): the port's input is sampled and executed whole. -/

namespace Sys2Proof.Machine

/-- One clock edge (44_state_machine_commands.md R190, R205; log entry 1). -/
def step (s : State) : Host.Outcome State Fault Refusal := clockEdge exec s.nextInput s.popInput

/-- `s` with the command whose bits are `w` (`nbits` of them given, all above zero) driven on `cmd` and `blk` at the next
clock edge (log entry 1). -/
def State.withFetchWord (s : State) (nbits w : Nat) : State :=
  s.present (PortInput.ofWord (BitVec.ofNat Config.commandBits (w % 2 ^ nbits)))

end Sys2Proof.Machine
end

