-- ==== Sys2Proof/Machine/Assembler.lean ====
section
/-! DEFINITION. Command traces (30_encoding.md R91, R92): the lines, their commands, and reading a line of text. -/

namespace Sys2Proof.Machine

/-- A line of a command trace (30_encoding.md R91) or a pseudo-instruction (R92). -/
inductive AsmLine where
  | comment
  | nop
  | reset
  | load (w0 w1 w2 w3 : Word)
  | adve
  | advd
  | loadb (B : Vector Byte 16)
  | adveTimes (n : Nat)
  | advdTimes (n : Nat)
  | encrypt (w0 w1 w2 w3 : Word)
  | decrypt (w0 w1 w2 w3 : Word)
  | abort
  | poll (d : Direction)
deriving DecidableEq, Repr

/-- `LOAD w0, w1, w2, w3`, word 0 first (30_encoding.md R91): the words stand in `blk` as R83 says. -/
def loadOfWords (w0 w1 w2 w3 : Word) : Instr := .load (Block.toBits ⟨w0, w1, w2, w3⟩)

/-- `LOADB`: the bytes assembled in the engine's byte order (30_encoding.md R92, R83; log entry 10). -/
def loadOfBytes (o : ByteOrder) (B : Vector Byte 16) : Instr := .load (Block.ofBytes o B).toBits

/-- The ADVANCE of a direction (30_encoding.md R81). -/
def advanceOf : Direction → Instr
  | .encrypt => .advanceEncrypt
  | .decrypt => .advanceDecrypt

/-- The commands of a line (30_encoding.md R91, R92). -/
def assemble : AsmLine → List Instr
  | .comment => []
  | .nop => [.nop]
  | .reset => [.reset]
  | .load w0 w1 w2 w3 => [loadOfWords w0 w1 w2 w3]
  | .adve => [.advanceEncrypt]
  | .advd => [.advanceDecrypt]
  | .loadb B => [loadOfBytes Config.byteOrder B]
  | .adveTimes n => List.replicate n .advanceEncrypt
  | .advdTimes n => List.replicate n .advanceDecrypt
  | .encrypt w0 w1 w2 w3 => loadOfWords w0 w1 w2 w3 :: List.replicate Config.totalSteps .advanceEncrypt
  | .decrypt w0 w1 w2 w3 => loadOfWords w0 w1 w2 w3 :: List.replicate Config.totalSteps .advanceDecrypt
  | .abort => [.reset]
  | .poll d => [advanceOf d]

/-- What the host drives for a trace, one entry a clock edge. -/
def drive (lines : List AsmLine) : List PortInput :=
  (lines.flatMap assemble).map fun i => PortInput.ofWord (encode i)

/-- The value of a digit in base 16. -/
def hexDigit (c : Char) : Option Nat :=
  if '0'.toNat ≤ c.toNat ∧ c.toNat ≤ '9'.toNat then some (c.toNat - '0'.toNat)
  else if 'a'.toNat ≤ c.toNat ∧ c.toNat ≤ 'f'.toNat then some (c.toNat - 'a'.toNat + 10)
  else if 'A'.toNat ≤ c.toNat ∧ c.toNat ≤ 'F'.toNat then some (c.toNat - 'A'.toNat + 10)
  else none

/-- The number that `cs` writes in base `base`, after `acc`. -/
def numberFrom (base acc : Nat) : List Char → Option Nat
  | [] => some acc
  | c :: cs =>
    match hexDigit c with
    | some d => if d < base then numberFrom base (base * acc + d) cs else none
    | none => none

/-- A hex literal of exactly `digits` digits (00_scope.md R8: the number of digits shows the width). -/
def hexLiteral (digits : Nat) (cs : List Char) : Option Nat := if cs.length = digits then numberFrom 16 0 cs else none

/-- A decimal count. -/
def decimalLiteral (cs : List Char) : Option Nat := if cs = [] then none else numberFrom 10 0 cs

/-- The words of a line: text after a semicolon is a comment, spaces and commas separate (30_encoding.md R91). `cur` is
the word read so far, reversed. -/
def tokens (cur : List Char) : List Char → List (List Char)
  | [] => if cur = [] then [] else [cur.reverse]
  | c :: cs =>
    if c = ';' then (if cur = [] then [] else [cur.reverse])
    else if c = ' ' ∨ c = ',' then
      if cur = [] then tokens [] cs else cur.reverse :: tokens [] cs
    else tokens (c :: cur) cs

/-- Sixteen byte literals as a vector. -/
def bytesOf : List Byte → Option (Vector Byte 16)
  | l => if h : l.length = 16 then some ⟨l.toArray, by simpa using h⟩ else none

/-- A line of text (30_encoding.md R91, R92); `none` is no line of the syntax. -/
def parseLine (text : List Char) : Option AsmLine :=
  match tokens [] text with
  | [] => some .comment
  | op :: args =>
    match op, args with
    | ['N', 'O', 'P'], [] => some .nop
    | ['R', 'E', 'S', 'E', 'T'], [] => some .reset
    | ['A', 'B', 'O', 'R', 'T'], [] => some .abort
    | ['P', 'O', 'L', 'L'], [] => some (.poll .encrypt)
    | ['A', 'D', 'V', 'E'], [] => some .adve
    | ['A', 'D', 'V', 'D'], [] => some .advd
    | ['A', 'D', 'V', 'E'], [n] => (decimalLiteral n).map .adveTimes
    | ['A', 'D', 'V', 'D'], [n] => (decimalLiteral n).map .advdTimes
    | ['L', 'O', 'A', 'D', 'B'], bs =>
      ((bs.mapM (hexLiteral 2)).bind fun l => bytesOf (l.map (BitVec.ofNat 8))).map .loadb
    | op, [a, b, c, d] =>
      match hexLiteral 8 a, hexLiteral 8 b, hexLiteral 8 c, hexLiteral 8 d with
      | some w0, some w1, some w2, some w3 =>
        match op with
        | ['L', 'O', 'A', 'D'] => some (.load (.ofNat 32 w0) (.ofNat 32 w1) (.ofNat 32 w2) (.ofNat 32 w3))
        | ['E', 'N', 'C', 'R', 'Y', 'P', 'T'] =>
          some (.encrypt (.ofNat 32 w0) (.ofNat 32 w1) (.ofNat 32 w2) (.ofNat 32 w3))
        | ['D', 'E', 'C', 'R', 'Y', 'P', 'T'] =>
          some (.decrypt (.ofNat 32 w0) (.ofNat 32 w1) (.ofNat 32 w2) (.ofNat 32 w3))
        | _ => none
      | _, _, _, _ => none
    | _, _ => none

end Sys2Proof.Machine
end

