-- ==== Sys2Proof/Machine/Ports.lean ====
section
/-! DEFINITION. The output ports (44_state_machine_commands.md R205), each a function of the state and the command. -/

namespace Sys2Proof.Machine

/-- The output ports of 44_state_machine_commands.md R205 but for `ks_addr`. -/
structure PortOutput where
  accepted : Bool
  done : Bool
  fault : Bool
  faultCode : BitVec 2
  progress : BitVec 8
  busy : Bool
  outBlock : BitVec 128
deriving DecidableEq, Repr

/-- What the ports show after a command: its result bits, and the current `progress`, `busy`, `out` (10_state.md R28). -/
def State.ports (s : State) : PortOutput where
  accepted := s.result.accepted
  done := s.result.done
  fault := s.result.fault
  faultCode := s.result.faultCode
  progress := s.progress
  busy := s.busy
  outBlock := s.out.toBits

/-- `ks_addr` while command `i` executes on an engine at `progress`; `none` where it is "not meaningful" (20_memory.md
R54). -/
def ksAddr (i : Instr) (progress : BitVec 8) : Option (BitVec 8) :=
  (i.direction?.bind fun d => keyIndexAt d progress).map fun idx => BitVec.ofNat 8 idx.val

/-- `ks_data`, what the schedule shows at the address of the same command (20_memory.md R54). -/
def ksData (s : State) (i : Instr) : Option Word :=
  (i.direction?.bind fun d => keyIndexAt d s.progress).map s.ks.read

end Sys2Proof.Machine
end

