-- ==== Sys2Proof/Safety.lean ====
section
/-! DEFINITION. Runs, the invariant, and what a good run is, in the terms the statements use. -/

namespace Sys2Proof.Machine

/-- The commands `is` one after the other, stopping at the first fault or refusal (20_memory.md R62). -/
def runCommands : List Instr → State → Host.Outcome State Fault Refusal
  | [], s => .next s
  | i :: is, s =>
    match exec i s with
    | .next t => runCommands is t
    | .fault f => .fault f
    | .refused r => .refused r

/-- `progress` holds a legal value (10_state.md R24). -/
def ProgressLegal (s : State) : Prop := s.progress.toNat ≤ Config.totalSteps

/-- What every step keeps: a legal counter, a schedule in canonical form, and a `fault_code` the hardware can drive. -/
structure Inv (s : State) : Prop where
  progressLegal : ProgressLegal s
  scheduleCanonical : s.ks.wf = true
  faultCodeDriven : s.result.faultCode ≠ 0b11#2

/-- The states a run can reach from any hardware reset: whatever the data registers hold then, whatever schedule the
platform provides and whatever the host drives (10_state.md R24, 20_memory.md R63). -/
inductive Reachable : State → Prop
  | reset (x out : Block) (ks : Memory) (inputs : List PortInput) :
      Reachable { State.reset with x := x, out := out, ks := ks, inputs := inputs }
  | step {s t : State} : Reachable s → Machine.step s = .next t → Reachable t
  | rekey {s t : State} (m : Memory) : Reachable s → provideKeySchedule m s = .next t → Reachable t

/-- The engine after the clock edges at which the host drives `ps`, one after the other; what stands on the port behind
them stays there. -/
def runEdges : List PortInput → State → Host.Outcome State Fault Refusal
  | [], s => .next s
  | p :: ps, s =>
    match Machine.step (s.present p) with
    | .next t => runEdges ps t
    | .fault f => .fault f
    | .refused r => .refused r

/-- A good run, edge by edge, whatever the ports carry: every clock edge at which the host drives `ps` answers a next state
and shows `fault` 0. A reserved code (60_exceptions.md R223: "the run is not a good run") and an ADVANCE at a reserved
`progress` (R224) end it; a rejected LOAD (R221), a NOP and a hardware reset leave it one. -/
def GoodEdges : List PortInput → State → Prop
  | [], _ => True
  | p :: ps, s => ∃ t, Machine.step (s.present p) = .next t ∧ t.result.fault = false ∧ GoodEdges ps t

/-- A good run of decoded commands: every command answers a next state and raises no fault. It is `GoodEdges` of the
commands' words; a reserved code decodes to no command, so it can stand in `GoodEdges` only (log entry 7). -/
def GoodRun : List Instr → State → Prop
  | [], _ => True
  | i :: is, s => ∃ t, exec i s = .next t ∧ t.result.fault = false ∧ GoodRun is t

end Sys2Proof.Machine
end

