-- ==== Sys2Proof/Certificates/Slice0/Obligations.lean ====
section
/-! DEFINITION. The statements for the provers. Where a statement is about every state it holds in unreachable states too;
the data registers, the schedule and the free values are quantified over, never taken at the value the model names. -/

open Sys2Proof Sys2Proof.Machine

/-! ### Reset and the machine as a whole -/

/-- 10_state.md R31, 70_reset_and_hazards.md R250, R252: after reset, whatever the data registers and the schedule hold, the
engine is idle and shows no result bit, a LOAD is accepted and an ADVANCE is a no-op. -/
def Obligations.AfterResetTheEngineIsIdle : Prop :=
  ∀ (x out : Block) (ks : Memory) (s : State), s = { State.reset with x := x, out := out, ks := ks } →
    s.progress = 0 ∧ s.busy = false ∧ s.result = ⟨false, false, 0b00#2⟩ ∧ s.result.fault = false ∧
    (∀ blk, ∃ t, exec (.load blk) s = .next t ∧ t.result.accepted = true) ∧
    exec .advanceEncrypt s = .next s ∧ exec .advanceDecrypt s = .next s

/-- The invariant holds right after reset, whatever the data registers hold: `progress` is legal (10_state.md R24, R31) and
the fault code is not 11 (60_exceptions.md R226, 70_reset_and_hazards.md R252). Its third clause, that the schedule has its
canonical form, is the model's choice (log entry 5) and no rule of the spec. -/
def Obligations.ResetSatisfiesInvariant : Prop :=
  ∀ (x out : Block) (ks : Memory), ks.wf = true → Inv { State.reset with x := x, out := out, ks := ks }

/-- 10_state.md R24 as an induction step: every clock edge, whatever the host drives, keeps the invariant from every state
that meets it: a legal `progress` (R24, 44_state_machine_commands.md R196) and a fault code that is not 11
(60_exceptions.md R226). Its third clause, that the schedule keeps its canonical form, is about the model's choice of form
(log entry 5); it stays because no step writes the schedule (10_state.md R26). -/
def Obligations.EveryStepKeepsInvariant : Prop := ∀ s t : State, Inv s → step s = .next t → Inv t

/-- 10_state.md R24: in every state reachable from reset by any sequence of commands, 0 <= progress <= 134. -/
def Obligations.ReachableProgressIsLegal : Prop := ∀ s : State, Reachable s → s.progress.toNat ≤ 134

/-- 44_state_machine_commands.md R190: `exec` is total. Every clock edge and every command answers a next state, in every
state, reachable or not. -/
def Obligations.EveryClockEdgeCompletes : Prop :=
  (∀ s : State, ∃ t, step s = .next t) ∧
  (∀ (i : Instr) (s : State), i.isCommand = true → ∃ t, exec i s = .next t)

/-- A step runs the decoded command: with `rst` low, the command on the port runs on the state whose port has moved on to
the next input; nothing else is changed by the step around it (log entry 1). -/
def Obligations.StepRunsTheDecodedCommand : Prop :=
  ∀ (s : State) (p : PortInput) (rest : List PortInput) (i : Instr),
    s.inputs = p :: rest → p.rst = false → decode (p.blk ++ p.cmd) = .ok i →
    step s = exec i { s with inputs := rest }

/-- With nothing driven, a clock edge is a NOP (44_state_machine_commands.md R191; the model's choice, log entry 1). -/
def Obligations.QuietPortIsNop : Prop :=
  ∀ s : State, s.inputs = [] → step s = .next { s with result := ⟨false, false, 0b00#2⟩ }

/-- 70_reset_and_hazards.md R250, R252, 60_exceptions.md R228: `rst` wins over any command; `progress` is 0, no result bit,
the schedule is kept; `x` and `out` are whatever draw number `resetDraws` leaves (free values, log entry 4). -/
def Obligations.HardwareResetWinsOverAnyCommand : Prop :=
  ∀ (s : State) (p : PortInput) (rest : List PortInput), s.inputs = p :: rest → p.rst = true →
    step s = .next { s with
      progress := 0
      x := resetX s.resetDraws
      out := resetOut s.resetDraws
      result := ⟨false, false, 0b00#2⟩
      inputs := rest
      resetDraws := s.resetDraws + 1 }

/-- 60_exceptions.md R223: a reserved code raises IllegalCommand; nothing is written, `fault` is 1 with code 01, which
`GoodEdges` excludes. That the engine goes on is 44_state_machine_commands.md R190 (log entry 7). -/
def Obligations.ReservedCodeRaisesIllegalCommand : Prop :=
  ∀ (s : State) (p : PortInput) (rest : List PortInput), s.inputs = p :: rest → p.rst = false →
    (p.cmd = 0b011#3 ∨ p.cmd = 0b110#3 ∨ p.cmd = 0b111#3) →
    ∃ t, step s = .next t ∧ t = { s with inputs := rest, result := ⟨false, false, 0b01#2⟩ } ∧ t.ports.fault = true

/-- 60_exceptions.md R226: each fault code names its cause, at every clock edge; a rejected LOAD shows `accepted` 0 and no
fault; `11` is never driven. That the engine goes on after a fault is 44_state_machine_commands.md R190 (log entry 7). -/
def Obligations.FaultCodesNameTheirCause : Prop :=
  ∀ (s t : State) (p : PortInput) (rest : List PortInput), s.inputs = p :: rest → step s = .next t →
    (t.result.faultCode = 0b01#2 ↔ p.rst = false ∧ (p.cmd = 0b011#3 ∨ p.cmd = 0b110#3 ∨ p.cmd = 0b111#3)) ∧
    (t.result.faultCode = 0b10#2 ↔
      p.rst = false ∧ (p.cmd = 0b100#3 ∨ p.cmd = 0b101#3) ∧ 135 ≤ s.progress.toNat) ∧
    (p.rst = false ∧ p.cmd = 0b010#3 ∧ s.progress.toNat ≠ 0 →
      t.ports.accepted = false ∧ t.result.faultCode = 0b00#2) ∧
    t.result.faultCode ≠ 0b11#2 ∧ (t.ports.fault = true ↔ t.result.faultCode ≠ 0b00#2)

/-! ### Commands -/

/-- 44_state_machine_commands.md R191: no state is read or written; legal at any `progress`. -/
def Obligations.NopWritesNothing : Prop :=
  ∀ s : State, exec .nop s = .next { s with result := ⟨false, false, 0b00#2⟩ }

/-- 44_state_machine_commands.md R192: RESET writes `progress` only, at every value of it. -/
def Obligations.ResetCommandWritesProgressOnly : Prop :=
  ∀ s : State, exec .reset s = .next { s with progress := 0, result := ⟨false, false, 0b00#2⟩ }

/-- 44_state_machine_commands.md R193: an idle engine takes the four words of `blk`, sets `progress` to 1 and accepts; any
other rejects with nothing written. -/
def Obligations.LoadIsAcceptedExactlyWhenIdle : Prop :=
  ∀ (s : State) (w0 w1 w2 w3 : Word),
    (s.progress.toNat = 0 → exec (.load (w3 ++ w2 ++ w1 ++ w0)) s =
      .next { s with x := ⟨w0, w1, w2, w3⟩, progress := 1, result := ⟨true, false, 0b00#2⟩ }) ∧
    (s.progress.toNat ≠ 0 → exec (.load (w3 ++ w2 ++ w1 ++ w0)) s =
      .next { s with result := ⟨false, false, 0b00#2⟩ })

/-- 44_state_machine_commands.md R194: ADVANCE_ENCRYPT performs exactly the one step its `progress` selects and completes;
`done` only at 134; a reserved `progress` raises IllegalProgress with nothing written, and the engine goes on (R190, log
entry 7). -/
def Obligations.AdvanceEncryptPerformsTheSelectedStep : Prop :=
  ∀ s : State,
    (s.progress.toNat = 0 → exec .advanceEncrypt s = exec .eIdle s) ∧
    (1 ≤ s.progress.toNat ∧ s.progress.toNat ≤ 128 ∧ (s.progress.toNat - 1) % 16 ≠ 15 →
      exec .advanceEncrypt s = exec .eRound s) ∧
    (1 ≤ s.progress.toNat ∧ s.progress.toNat ≤ 128 ∧ (s.progress.toNat - 1) % 16 = 15 →
      exec .advanceEncrypt s = exec .eRoundL s) ∧
    (129 ≤ s.progress.toNat ∧ s.progress.toNat ≤ 132 → exec .advanceEncrypt s = exec .eWhiten s) ∧
    (s.progress.toNat = 133 → exec .advanceEncrypt s = exec .eMaterialize s) ∧
    (s.progress.toNat = 134 → exec .advanceEncrypt s = exec .eTerminate s) ∧
    (s.progress.toNat ≤ 134 → ∃ t, exec .advanceEncrypt s = .next t ∧ t.result.accepted = false ∧
      (t.result.done = true ↔ s.progress.toNat = 134) ∧ t.result.faultCode = 0b00#2) ∧
    (135 ≤ s.progress.toNat → exec .advanceEncrypt s = .next { s with result := ⟨false, false, 0b10#2⟩ })

/-- 44_state_machine_commands.md R195: as R194, for ADVANCE_DECRYPT and its table. -/
def Obligations.AdvanceDecryptPerformsTheSelectedStep : Prop :=
  ∀ s : State,
    (s.progress.toNat = 0 → exec .advanceDecrypt s = exec .dIdle s) ∧
    (1 ≤ s.progress.toNat ∧ s.progress.toNat ≤ 4 → exec .advanceDecrypt s = exec .dWhiten s) ∧
    (5 ≤ s.progress.toNat ∧ s.progress.toNat ≤ 132 ∧ (132 - s.progress.toNat) % 16 ≠ 15 →
      exec .advanceDecrypt s = exec .dRound s) ∧
    (5 ≤ s.progress.toNat ∧ s.progress.toNat ≤ 132 ∧ (132 - s.progress.toNat) % 16 = 15 →
      exec .advanceDecrypt s = exec .dLinvRound s) ∧
    (s.progress.toNat = 133 → exec .advanceDecrypt s = exec .dMaterialize s) ∧
    (s.progress.toNat = 134 → exec .advanceDecrypt s = exec .dTerminate s) ∧
    (s.progress.toNat ≤ 134 → ∃ t, exec .advanceDecrypt s = .next t ∧ t.result.accepted = false ∧
      (t.result.done = true ↔ s.progress.toNat = 134) ∧ t.result.faultCode = 0b00#2) ∧
    (135 ≤ s.progress.toNat → exec .advanceDecrypt s = .next { s with result := ⟨false, false, 0b10#2⟩ })

/-! ### Steps of the encryption direction -/

/-- 42_round_engine_encrypt.md R151, with `A` written out (40_arx_primitive.md R111): `k = progress - 1`, the branch word
and the key word at index k are XORed, the low half is left and the high half right; nothing else changes. -/
def Obligations.ERoundTransformsItsBranch : Prop :=
  ∀ (s : State) (k : Fin 128) (b : Fin 4) (idx : Fin 132) (v : Word) (left right l r : Half),
    s.progress.toNat = k.val + 1 → k.val % 16 ≠ 15 → b.val = k.val / 4 % 4 → idx.val = k.val →
    v = s.x.get b ^^^ s.ks.read idx → left = v.extractLsb' 0 16 → right = v.extractLsb' 16 16 →
    l = left.rotateLeft 9 + right → r = right.rotateLeft 2 ^^^ l →
    exec .eRound s =
      .next { s with x := s.x.set b (r ++ l), progress := s.progress + 1, result := ⟨false, false, 0b00#2⟩ }

/-- 42_round_engine_encrypt.md R152: the round operation on branch 3, then `L` in the word form of 41_linear_layer.md R131,
on the block the round operation left. -/
def Obligations.ERoundLMixesAfterTheRound : Prop :=
  ∀ (s : State) (k : Fin 128) (idx : Fin 132) (v x3 : Word) (left right l r t : Half),
    s.progress.toNat = k.val + 1 → k.val % 16 = 15 → idx.val = k.val →
    v = s.x.w3 ^^^ s.ks.read idx → left = v.extractLsb' 0 16 → right = v.extractLsb' 16 16 →
    l = left.rotateLeft 9 + right → r = right.rotateLeft 2 ^^^ l → x3 = r ++ l →
    t = (lo16 s.x.w0 ^^^ hi16 s.x.w0 ^^^ lo16 s.x.w1 ^^^ hi16 s.x.w1).rotateLeft 8 →
    exec .eRoundL s = .next { s with
      x := ⟨s.x.w2 ^^^ (hi16 s.x.w0 ++ lo16 s.x.w1) ^^^ (t ++ t), x3 ^^^ (hi16 s.x.w1 ++ lo16 s.x.w0) ^^^ (t ++ t),
        s.x.w0, s.x.w1⟩
      progress := s.progress + 1
      result := ⟨false, false, 0b00#2⟩ }

/-- 42_round_engine_encrypt.md R153: word i is XORed with the key word at index 128 + i; nothing else changes. -/
def Obligations.EWhitenXorsOneWord : Prop :=
  ∀ (s : State) (i : Fin 4) (idx : Fin 132), s.progress.toNat = 129 + i.val → idx.val = 128 + i.val →
    exec .eWhiten s = .next { s with
      x := s.x.set i (s.x.get i ^^^ s.ks.read idx), progress := s.progress + 1, result := ⟨false, false, 0b00#2⟩ }

/-- 42_round_engine_encrypt.md R154: `out` takes the four words of `x`, `progress` is 134, `done` is 0. -/
def Obligations.EMaterializeCopiesTheBlock : Prop :=
  ∀ s : State, s.progress.toNat = 133 →
    exec .eMaterialize s = .next { s with out := s.x, progress := 134, result := ⟨false, false, 0b00#2⟩ }

/-- 42_round_engine_encrypt.md R155: `progress` returns to 0 and `done` is 1; `x` and `out` keep their value. -/
def Obligations.ETerminateCompletes : Prop :=
  ∀ s : State, s.progress.toNat = 134 →
    exec .eTerminate s = .next { s with progress := 0, result := ⟨false, true, 0b00#2⟩ }

/-- 42_round_engine_encrypt.md R156: nothing is written and `done` is 0. -/
def Obligations.EIdleWritesNothing : Prop :=
  ∀ s : State, s.progress.toNat = 0 → exec .eIdle s = .next { s with result := ⟨false, false, 0b00#2⟩ }

/-! ### Steps of the decryption direction -/

/-- 43_round_engine_decrypt.md R171: word i is XORed with the key word at index 128 + i; nothing else changes. -/
def Obligations.DWhitenXorsOneWord : Prop :=
  ∀ (s : State) (i : Fin 4) (idx : Fin 132), s.progress.toNat = i.val + 1 → idx.val = 128 + i.val →
    exec .dWhiten s = .next { s with
      x := s.x.set i (s.x.get i ^^^ s.ks.read idx), progress := s.progress + 1, result := ⟨false, false, 0b00#2⟩ }

/-- 43_round_engine_decrypt.md R172, with `A_INV` written out (40_arx_primitive.md R112): `k = 132 - progress`; the inverse
primitive comes first and the key XOR after it. -/
def Obligations.DRoundUndoesItsBranch : Prop :=
  ∀ (s : State) (k : Fin 128) (b : Fin 4) (idx : Fin 132) (left right l r : Half),
    s.progress.toNat + k.val = 132 → k.val % 16 ≠ 15 → b.val = k.val / 4 % 4 → idx.val = k.val →
    left = (s.x.get b).extractLsb' 0 16 → right = (s.x.get b).extractLsb' 16 16 →
    r = (right ^^^ left).rotateLeft 14 → l = (left - r).rotateLeft 7 →
    exec .dRound s = .next { s with
      x := s.x.set b ((r ++ l) ^^^ s.ks.read idx), progress := s.progress + 1, result := ⟨false, false, 0b00#2⟩ }

/-- 43_round_engine_decrypt.md R173: `L_INV` in the word form of 41_linear_layer.md R132 first, then the inverse round
operation on branch 3 of the block it left. -/
def Obligations.DLinvRoundUnmixesBeforeTheRound : Prop :=
  ∀ (s : State) (k : Fin 128) (idx : Fin 132) (t : Half) (y2 y3 : Word) (left right l r : Half),
    s.progress.toNat + k.val = 132 → k.val % 16 = 15 → idx.val = k.val →
    t = (lo16 s.x.w2 ^^^ hi16 s.x.w2 ^^^ lo16 s.x.w3 ^^^ hi16 s.x.w3).rotateLeft 8 →
    y2 = s.x.w0 ^^^ (hi16 s.x.w2 ++ lo16 s.x.w3) ^^^ (t ++ t) →
    y3 = s.x.w1 ^^^ (hi16 s.x.w3 ++ lo16 s.x.w2) ^^^ (t ++ t) →
    left = y3.extractLsb' 0 16 → right = y3.extractLsb' 16 16 →
    r = (right ^^^ left).rotateLeft 14 → l = (left - r).rotateLeft 7 →
    exec .dLinvRound s = .next { s with
      x := ⟨s.x.w2, s.x.w3, y2, (r ++ l) ^^^ s.ks.read idx⟩
      progress := s.progress + 1
      result := ⟨false, false, 0b00#2⟩ }

/-- 43_round_engine_decrypt.md R174: the same copy as E_MATERIALIZE. -/
def Obligations.DMaterializeCopiesTheBlock : Prop :=
  ∀ s : State, s.progress.toNat = 133 →
    exec .dMaterialize s = .next { s with out := s.x, progress := 134, result := ⟨false, false, 0b00#2⟩ }

/-- 43_round_engine_decrypt.md R175: `progress` returns to 0 and `done` is 1; `x` and `out` keep their value. -/
def Obligations.DTerminateCompletes : Prop :=
  ∀ s : State, s.progress.toNat = 134 →
    exec .dTerminate s = .next { s with progress := 0, result := ⟨false, true, 0b00#2⟩ }

/-- 43_round_engine_decrypt.md R176: nothing is written and `done` is 0. -/
def Obligations.DIdleWritesNothing : Prop :=
  ∀ s : State, s.progress.toNat = 0 → exec .dIdle s = .next { s with result := ⟨false, false, 0b00#2⟩ }

/-- The model's choice (log entry 8): a step row run where its selector does not hold is refused by name, and nothing else
is; no command can ask for it (30_encoding.md R84, R85). -/
def Obligations.UnselectedStepRowIsRefused : Prop :=
  ∀ (i : Instr) (s : State),
    (i.wellFormedAt s.progress = false → ∃ m, exec i s = .refused (.stepNotSelected m)) ∧
    (i.wellFormedAt s.progress = true → ∃ t, exec i s = .next t)

/-! ### Encoding and decoding -/

/-- 30_encoding.md R81, R82: decoding the encoding of any command gives it back, its whole operand included; and a word
that decodes to a command has that command's code, and for LOAD is that command's encoding, bit for bit. -/
def Obligations.DecodeAndEncodeAgree : Prop :=
  (∀ i : Instr, i.isCommand = true → decode (encode i) = .ok i) ∧
  (∀ (w : CommandWord) (i : Instr), decode w = .ok i → i.isCommand = true ∧ cmdField (encode i) = cmdField w ∧
    (cmdField w = 0b010#3 → encode i = w))

/-- 30_encoding.md R84, R85, R93: at every `progress` the two-stage decoder resolves a step row's word to that row exactly
where the row's selector in opcode_table.json holds. -/
def Obligations.StepRowsDecodeWhereSelected : Prop :=
  ∀ (i : Instr) (p : BitVec 8), i.isCommand = false →
    (decodeAt p (encode i) = .ok i ↔ i.wellFormedAt p = true)

/-- 30_encoding.md R87: each `progress` in 0..134 selects exactly one row of each direction, each value above none, and
the rows have the counts 120, 8, 4, 1, 1 (and one idle value). -/
def Obligations.StepDecodeIsTotalAndDisjoint : Prop :=
  (∀ p : BitVec 8,
    (([Instr.eIdle, .eRound, .eRoundL, .eWhiten, .eMaterialize, .eTerminate].filter
      fun i => i.wellFormedAt p).length = if p.toNat ≤ 134 then 1 else 0) ∧
    (([Instr.dIdle, .dWhiten, .dRound, .dLinvRound, .dMaterialize, .dTerminate].filter
      fun i => i.wellFormedAt p).length = if p.toNat ≤ 134 then 1 else 0)) ∧
  ([Instr.eIdle, .eRound, .eRoundL, .eWhiten, .eMaterialize, .eTerminate].map fun i =>
    ((List.range 256).filter fun n => i.wellFormedAt (BitVec.ofNat 8 n)).length) = [1, 120, 8, 4, 1, 1] ∧
  ([Instr.dIdle, .dWhiten, .dRound, .dLinvRound, .dMaterialize, .dTerminate].map fun i =>
    ((List.range 256).filter fun n => i.wellFormedAt (BitVec.ofNat 8 n)).length) = [1, 4, 120, 8, 1, 1]

/-- 30_encoding.md R81, R82, R88: exactly the codes 011, 110, 111 are rejected, by name; each of the five other codes decodes
to its command, whatever stands on `blk`, which is looked at for LOAD only. -/
def Obligations.ExactlyReservedCodesAreRejected : Prop :=
  ∀ w : CommandWord,
    ((cmdField w = 0b011#3 ∨ cmdField w = 0b110#3 ∨ cmdField w = 0b111#3) →
      decode w = .error (.reservedCode (cmdField w))) ∧
    (¬(cmdField w = 0b011#3 ∨ cmdField w = 0b110#3 ∨ cmdField w = 0b111#3) → ∃ i, decode w = .ok i) ∧
    (cmdField w = 0b000#3 → decode w = .ok .nop) ∧ (cmdField w = 0b001#3 → decode w = .ok .reset) ∧
    (cmdField w = 0b010#3 → decode w = .ok (.load (blkField w))) ∧
    (cmdField w = 0b100#3 → decode w = .ok .advanceEncrypt) ∧ (cmdField w = 0b101#3 → decode w = .ok .advanceDecrypt)

/-- Words written out from 30_encoding.md R81, R82: the five codes, and P1's LOAD (95_test_vectors.md section 6). -/
def Obligations.WrittenWordsDecode : Prop :=
  decode 0b000#131 = .ok .nop ∧ decode 0b001#131 = .ok .reset ∧ decode 0b100#131 = .ok .advanceEncrypt ∧
  decode 0b101#131 = .ok .advanceDecrypt ∧
  decode (0x32107654ba98fedccdef89ab45670123#128 ++ 0b010#3) = .ok (.load 0x32107654ba98fedccdef89ab45670123#128)

/-! ### Primitives and views -/

/-- 40_arx_primitive.md R113: A_INV(A(l, r)) = (l, r), and also A(A_INV(l, r)) = (l, r). -/
def Obligations.ArxInverseLaw : Prop :=
  ∀ l r : Half, arxInv (arx l r).1 (arx l r).2 = (l, r) ∧ arx (arxInv l r).1 (arxInv l r).2 = (l, r)

/-- 41_linear_layer.md R133: L_INV(L(s)) = s, and likewise L(L_INV(s)) = s. -/
def Obligations.LinearInverseLaw : Prop := ∀ b : Block, linearInv (linear b) = b ∧ linear (linearInv b) = b

/-- 41_linear_layer.md R134: both layers are linear over XOR and fix zero; L is not an involution. -/
def Obligations.MixingLayersAreLinear : Prop :=
  (∀ a b : Block, linear (a.xor b) = (linear a).xor (linear b) ∧ linearInv (a.xor b) = (linearInv a).xor (linearInv b)) ∧
  linear ⟨0, 0, 0, 0⟩ = ⟨0, 0, 0, 0⟩ ∧ linearInv ⟨0, 0, 0, 0⟩ = ⟨0, 0, 0, 0⟩ ∧
  linear (linear ⟨0, 0, 1, 0⟩) ≠ ⟨0, 0, 1, 0⟩

/-- 10_state.md R33: bytes to words and back lose nothing, in either byte order, and the little-endian mapping is
`B[4i+n] = (word i)[8n+7:8n]`, here for the word of any index. -/
def Obligations.ByteViewRoundTrips : Prop :=
  (∀ (o : ByteOrder) (b : Block), Block.ofBytes o (b.toBytes o) = b) ∧
  (∀ (o : ByteOrder) (B : Vector Byte 16), (Block.ofBytes o B).toBytes o = B) ∧
  (∀ (b : Block) (i : Fin 4) (n : Fin 4) (j : Fin 16), j.val = 4 * i.val + n.val →
    (b.toBytes .little)[j] = (b.get i).extractLsb' (8 * n.val) 8 ∧
    (b.toBytes .big)[j] = (b.get i).extractLsb' (8 * (3 - n.val)) 8)

/-- 30_encoding.md R83, 44_state_machine_commands.md R205: `blk` and the four words determine each other, word i at bits
32i+31:32i. -/
def Obligations.BlockPortRoundTrips : Prop :=
  (∀ b : Block, Block.ofBits b.toBits = b) ∧ (∀ v : BitVec 128, (Block.ofBits v).toBits = v) ∧
  (∀ (v : BitVec 128) (i : Fin 4), (Block.ofBits v).get i = v.extractLsb' (32 * i.val) 32)

/-- 10_state.md R22: a write of one half-word reads back, leaves the other seven alone, and is a write of the word that
holds it. -/
def Obligations.HalfWordsAliasTheWords : Prop :=
  ∀ (b : Block) (n m : Fin 8) (v : Half), (b.setHalf n v).half n = v ∧ (m ≠ n → (b.setHalf n v).half m = b.half m) ∧
    (∀ j : Fin 4, j.val ≠ n.val / 2 → (b.setHalf n v).get j = b.get j) ∧
    (∀ j : Fin 4, ∀ lo hi : Fin 8, lo.val = 2 * j.val → hi.val = 2 * j.val + 1 → b.get j = b.half hi ++ b.half lo)

/-! ### The key schedule -/

/-- 20_memory.md R53: the index each step reads, that nothing is read at 0, 133 and 134, and that each of the 132 words is
read exactly once per block in each direction. -/
def Obligations.KeyIndexFollowsTheTable : Prop :=
  (∀ (p : BitVec 8) (idx : Fin 132), keyIndexAt .encrypt p = some idx ↔
    1 ≤ p.toNat ∧ p.toNat ≤ 132 ∧ idx.val = p.toNat - 1) ∧
  (∀ (p : BitVec 8) (idx : Fin 132), keyIndexAt .decrypt p = some idx ↔
    (1 ≤ p.toNat ∧ p.toNat ≤ 4 ∧ idx.val = p.toNat + 127) ∨ (5 ≤ p.toNat ∧ p.toNat ≤ 132 ∧ idx.val = 132 - p.toNat)) ∧
  (∀ (d : Direction) (idx : Fin 132), ∃ p : BitVec 8, p.toNat ≤ 134 ∧ keyIndexAt d p = some idx ∧
    ∀ q : BitVec 8, keyIndexAt d q = some idx → q = p)

/-- 20_memory.md R52, R53, R58: an ADVANCE reads no key word but the one at its index. Two engines that differ in their
schedules only, and agree there, do the same. -/
def Obligations.AdvanceReadsOnlyItsKeyWord : Prop :=
  ∀ (d : Direction) (s t : State) (m : Memory),
    (∀ idx, keyIndexAt d s.progress = some idx → m.read idx = s.ks.read idx) →
    exec (advanceOf d) s = .next t → exec (advanceOf d) { s with ks := m } = .next { t with ks := m }

/-- 10_state.md R26, 20_memory.md R51: no clock edge and no instruction writes the key schedule. -/
def Obligations.NothingWritesTheKeySchedule : Prop :=
  (∀ s t : State, step s = .next t → t.ks = s.ks) ∧
  (∀ (i : Instr) (s t : State), exec i s = .next t → t.ks = s.ks)

/-- 20_memory.md R63: the platform's change of the schedule is taken by an idle engine, every other part of the state
kept, and refused by a busy one (log entry 6). -/
def Obligations.ScheduleChangesOnlyWhileIdle : Prop :=
  ∀ (m : Memory) (s : State),
    (s.progress.toNat = 0 → provideKeySchedule m s = .next { s with ks := m }) ∧
    (s.progress.toNat ≠ 0 → provideKeySchedule m s = .refused .keyScheduleChangedWhileBusy)

/-! ### Laws of the whole machine -/

/-- 44_state_machine_commands.md R196: the complete transition law of `progress`, at a clock edge. -/
def Obligations.ProgressTransitionLaw : Prop :=
  ∀ (s t : State) (p : PortInput) (rest : List PortInput), s.inputs = p :: rest → step s = .next t →
    t.progress.toNat =
      if p.rst = true then 0
      else if p.cmd = 0b001#3 then 0
      else if p.cmd = 0b010#3 then (if s.progress.toNat = 0 then 1 else s.progress.toNat)
      else if p.cmd = 0b100#3 ∨ p.cmd = 0b101#3 then
        (if s.progress.toNat = 0 then 0
         else if s.progress.toNat ≤ 133 then s.progress.toNat + 1
         else if s.progress.toNat = 134 then 0
         else s.progress.toNat)
      else s.progress.toNat

/-- 10_state.md R25, R29: an instruction that changes `out` ran the materialize step: `progress` goes from 133 to 134 and
`out` is then the whole of `x`. -/
def Obligations.OnlyMaterializeWritesOut : Prop :=
  ∀ (i : Instr) (s t : State), exec i s = .next t → t.out ≠ s.out →
    (i = .advanceEncrypt ∨ i = .advanceDecrypt ∨ i = .eMaterialize ∨ i = .dMaterialize) ∧
    s.progress.toNat = 133 ∧ t.progress.toNat = 134 ∧ t.out = s.x ∧ t.x = s.x

/-- 10_state.md R27: what each result bit of a command is, as a function of the command and of `progress` before it, and
what `busy` is. -/
def Obligations.ResultBitsFollowCommandAndProgress : Prop :=
  ∀ (i : Instr) (s t : State), i.isCommand = true → exec i s = .next t →
    (t.result.accepted = true ↔ (∃ blk, i = .load blk) ∧ s.progress.toNat = 0) ∧
    (t.result.done = true ↔ (i = .advanceEncrypt ∨ i = .advanceDecrypt) ∧ s.progress.toNat = 134) ∧
    (t.result.faultCode = if (i = .advanceEncrypt ∨ i = .advanceDecrypt) ∧ 135 ≤ s.progress.toNat then 0b10#2
      else 0b00#2) ∧
    (t.ports.busy = true ↔ t.progress.toNat ≠ 0)

/-- 10_state.md R27, R30: no instruction reads the last command's result bits, the inputs still to come, or the count of
reset draws. -/
def Obligations.NoInstructionReadsTheModelsOwnFields : Prop :=
  ∀ (i : Instr) (s t : State) (r : Result) (inputs : List PortInput) (n : Nat), exec i s = .next t →
    exec i { s with result := r, inputs := inputs, resetDraws := n } =
      .next { t with inputs := inputs, resetDraws := n }

/-- 44_state_machine_commands.md R199: the length of a block is fixed. After an accepted LOAD, ADVANCE commands 1 to 133, in
whatever directions, leave `progress` one higher each time with `done` 0; the 134th returns it to 0 with `done` 1. -/
def Obligations.BlockTakes134Advances : Prop :=
  ∀ (s : State) (blk : BitVec 128) (ds : List Direction), s.progress.toNat = 0 →
    (ds.length ≤ 133 → ∃ t, runCommands (.load blk :: ds.map advanceOf) s = .next t ∧
      t.progress.toNat = 1 + ds.length ∧ t.result.done = false) ∧
    (ds.length = 134 → ∃ t, runCommands (.load blk :: ds.map advanceOf) s = .next t ∧
      t.progress.toNat = 0 ∧ t.result.done = true)

/-- 44_state_machine_commands.md R201: a LOAD to a busy engine returns `accepted` 0, changes nothing, and every later
command runs as if it had not been issued. -/
def Obligations.RejectedLoadIsInvisible : Prop :=
  ∀ (s : State) (blk : BitVec 128), s.progress.toNat ≠ 0 →
    (∃ t, exec (.load blk) s = .next t ∧ t.result.accepted = false ∧ t.progress = s.progress ∧ t.x = s.x ∧
      t.out = s.out) ∧
    ∀ (i : Instr) (is : List Instr), i.isCommand = true →
      runCommands (.load blk :: i :: is) s = runCommands (i :: is) s

/-- 44_state_machine_commands.md R191, 70_reset_and_hazards.md R263: any number of NOPs before a later command changes no
result. -/
def Obligations.NopsAreInvisible : Prop :=
  ∀ (n : Nat) (s : State) (i : Instr) (is : List Instr), i.isCommand = true →
    runCommands (List.replicate n .nop ++ i :: is) s = runCommands (i :: is) s

/-- 44_state_machine_commands.md R203: direction is an operand of each command, not state. After any commands whatever, an
ADVANCE does what its own table gives for `progress`, `x` and the schedule alone. -/
def Obligations.DirectionIsNotState : Prop :=
  ∀ (d : Direction) (s u t v : State), s.progress = u.progress → s.x = u.x → s.ks = u.ks →
    exec (advanceOf d) s = .next t → exec (advanceOf d) u = .next v →
    t.progress = v.progress ∧ t.x = v.x ∧ t.result = v.result ∧
    (s.progress.toNat = 133 → t.out = s.x ∧ v.out = u.x) ∧ (s.progress.toNat ≠ 133 → t.out = s.out ∧ v.out = u.out)

/-- 44_state_machine_commands.md R202: after any commands whatever, RESET, a LOAD and a full run give the same result on
this engine as on any other with the same schedule, touched or not. -/
def Obligations.AbandonmentLeaksNothing : Prop :=
  ∀ (s u s1 : State) (before : List Instr) (blk : BitVec 128) (ds : List Direction),
    u.ks = s.ks → runCommands before s = .next s1 → ds.length = 134 →
    ∃ t v, runCommands (.reset :: .load blk :: ds.map advanceOf) s1 = .next t ∧
      runCommands (.reset :: .load blk :: ds.map advanceOf) u = .next v ∧
      t.out = v.out ∧ t.x = v.x ∧ t.progress = v.progress ∧ t.result = v.result

/-- 43_round_engine_decrypt.md R178: each decryption step is, as a map on `x`, the exact inverse of its mirror encryption
step, in both orders, and so are the whole-block functions. -/
def Obligations.MirrorLaw : Prop :=
  (∀ (s t u : State) (p : BitVec 8), 5 ≤ p.toNat → p.toNat ≤ 132 → s.progress.toNat = 133 - p.toNat →
    exec .advanceEncrypt s = .next t → exec .advanceDecrypt { t with progress := p } = .next u → u.x = s.x) ∧
  (∀ (s t u : State) (p : BitVec 8), 1 ≤ p.toNat → p.toNat ≤ 4 → s.progress.toNat = 128 + p.toNat →
    exec .advanceEncrypt s = .next t → exec .advanceDecrypt { t with progress := p } = .next u → u.x = s.x) ∧
  (∀ (s t u : State) (q : BitVec 8), 5 ≤ s.progress.toNat → s.progress.toNat ≤ 132 →
    q.toNat = 133 - s.progress.toNat → exec .advanceDecrypt s = .next t →
    exec .advanceEncrypt { t with progress := q } = .next u → u.x = s.x) ∧
  (∀ (s t u : State) (q : BitVec 8), 1 ≤ s.progress.toNat → s.progress.toNat ≤ 4 →
    q.toNat = 128 + s.progress.toNat → exec .advanceDecrypt s = .next t →
    exec .advanceEncrypt { t with progress := q } = .next u → u.x = s.x) ∧
  (∀ (ks : Memory) (b : Block), dec ks (enc ks b) = b ∧ enc ks (dec ks b) = b)

/-- 42_round_engine_encrypt.md R157: from idle, LOAD P and 134 ADVANCE_ENCRYPT compute ENC(KS, P), for every block and every
schedule; `out` holds it after the 133rd and the 134th returns the engine to idle with `done`. -/
def Obligations.EncryptionRunComputesEnc : Prop :=
  ∀ (s : State) (P : Block), s.progress.toNat = 0 →
    runCommands (.load P.toBits :: List.replicate 133 .advanceEncrypt) s = .next { s with
      progress := 134, x := enc s.ks P, out := enc s.ks P, result := ⟨false, false, 0b00#2⟩ } ∧
    runCommands (.load P.toBits :: List.replicate 134 .advanceEncrypt) s = .next { s with
      progress := 0, x := enc s.ks P, out := enc s.ks P, result := ⟨false, true, 0b00#2⟩ }

/-- 43_round_engine_decrypt.md R177: from idle, LOAD C and 134 ADVANCE_DECRYPT compute DEC(KS, C), for every block and every
schedule; `out` holds it after the 133rd and the 134th returns the engine to idle with `done`. -/
def Obligations.DecryptionRunComputesDec : Prop :=
  ∀ (s : State) (C : Block), s.progress.toNat = 0 →
    runCommands (.load C.toBits :: List.replicate 133 .advanceDecrypt) s = .next { s with
      progress := 134, x := dec s.ks C, out := dec s.ks C, result := ⟨false, false, 0b00#2⟩ } ∧
    runCommands (.load C.toBits :: List.replicate 134 .advanceDecrypt) s = .next { s with
      progress := 0, x := dec s.ks C, out := dec s.ks C, result := ⟨false, true, 0b00#2⟩ }

/-- 44_state_machine_commands.md R200: for all blocks P and all schedules, a full encryption and then a full decryption of
what `out` holds reproduce P exactly; and the converse order too. Every run is a good run. -/
def Obligations.RoundTripReturnsTheBlock : Prop :=
  ∀ (s : State) (P : Block) (d e : Direction), s.progress.toNat = 0 → d ≠ e →
    ∃ t u, runCommands (.load P.toBits :: List.replicate 134 (advanceOf d)) s = .next t ∧
      runCommands (.load t.out.toBits :: List.replicate 134 (advanceOf e)) t = .next u ∧
      u.out = P ∧ u.progress = 0 ∧ u.result.done = true ∧
      GoodRun (.load P.toBits :: List.replicate 134 (advanceOf d)) s ∧
      GoodRun (.load t.out.toBits :: List.replicate 134 (advanceOf e)) t

/-- 44_state_machine_commands.md R198: `done` is 1 at a clock edge exactly when an ADVANCE ran at `progress` 134, and then
the engine is idle with `x` and `out` unchanged, so that a LOAD as the very next command is accepted. -/
def Obligations.DoneMeansIdleAndReadyForLoad : Prop :=
  ∀ (s t : State) (p : PortInput) (rest : List PortInput), s.inputs = p :: rest → step s = .next t →
    (t.ports.done = true ↔ p.rst = false ∧ (p.cmd = 0b100#3 ∨ p.cmd = 0b101#3) ∧ s.progress.toNat = 134) ∧
    (t.ports.done = true → t.progress = 0 ∧ t.out = s.out ∧ t.x = s.x ∧
      ∀ blk, ∃ u, exec (.load blk) t = .next u ∧ u.result.accepted = true)

/-- 30_encoding.md R91, R92, R83: a LOAD line loads its four words, word 0 first; NOP, RESET, ADVE and ADVD are their one
command, and a comment is none; LOADB loads the four words its sixteen bytes make little-endian; ENCRYPT, DECRYPT, ABORT,
POLL and the repetitions expand as the table says. -/
def Obligations.TraceLinesExpandAsTheTableSays : Prop :=
  (∀ (w0 w1 w2 w3 : Word) (s : State), assemble (.load w0 w1 w2 w3) = [.load (w3 ++ w2 ++ w1 ++ w0)] ∧
    (s.progress.toNat = 0 → runCommands (assemble (.load w0 w1 w2 w3)) s =
      .next { s with x := ⟨w0, w1, w2, w3⟩, progress := 1, result := ⟨true, false, 0b00#2⟩ })) ∧
  assemble .comment = [] ∧ assemble .nop = [.nop] ∧ assemble .reset = [.reset] ∧
  assemble .adve = [.advanceEncrypt] ∧ assemble .advd = [.advanceDecrypt] ∧
  (∀ (B : Vector Byte 16) (s : State), s.progress.toNat = 0 → ∃ t, runCommands (assemble (.loadb B)) s = .next t ∧
    t.x = ⟨B[3] ++ B[2] ++ B[1] ++ B[0], B[7] ++ B[6] ++ B[5] ++ B[4], B[11] ++ B[10] ++ B[9] ++ B[8],
      B[15] ++ B[14] ++ B[13] ++ B[12]⟩ ∧ t.result.accepted = true) ∧
  (∀ w0 w1 w2 w3 : Word, assemble (.encrypt w0 w1 w2 w3) = assemble (.load w0 w1 w2 w3) ++ assemble (.adveTimes 134) ∧
    assemble (.decrypt w0 w1 w2 w3) = assemble (.load w0 w1 w2 w3) ++ assemble (.advdTimes 134)) ∧
  assemble .abort = assemble .reset ∧ assemble (.poll .encrypt) = assemble .adve ∧
  assemble (.poll .decrypt) = assemble .advd ∧
  (∀ n, assemble (.adveTimes n) = List.replicate n .advanceEncrypt ∧
    assemble (.advdTimes n) = List.replicate n .advanceDecrypt)

/-- 60_exceptions.md R223, R224: a run of clock edges stops being a good run exactly at an edge that carries a reserved code
or an ADVANCE at a reserved `progress`; a reserved code anywhere in it ends it, whatever comes before or after; and a run
of commands is good exactly when the run of their words is. A rejected LOAD (R221) therefore leaves a run good. (That the
engine itself goes on is log entry 7.) -/
def Obligations.GoodRunsAreExactlyTheFaultFreeOnes : Prop :=
  (∀ (before : List PortInput) (p : PortInput) (s t : State), runEdges before s = .next t → GoodEdges before s →
    (GoodEdges (before ++ [p]) s ↔ ¬(p.rst = false ∧
      ((p.cmd = 0b011#3 ∨ p.cmd = 0b110#3 ∨ p.cmd = 0b111#3) ∨
        ((p.cmd = 0b100#3 ∨ p.cmd = 0b101#3) ∧ 135 ≤ t.progress.toNat))))) ∧
  (∀ (before after : List PortInput) (p : PortInput) (s : State), p.rst = false →
    (p.cmd = 0b011#3 ∨ p.cmd = 0b110#3 ∨ p.cmd = 0b111#3) → ¬GoodEdges (before ++ p :: after) s) ∧
  (∀ (is : List Instr) (s : State), (∀ i ∈ is, i.isCommand = true) →
    (GoodRun is s ↔ GoodEdges (is.map fun i => PortInput.ofWord (encode i)) s))

/-- 20_memory.md R54 and 44_state_machine_commands.md R205: in the two ADVANCE commands `ks_addr` shows the index of R53 and
`ks_data` the schedule's word there. Where the spec calls `ks_addr` not meaningful (NOP, RESET, LOAD, and an ADVANCE that
reads no key word) the model gives both ports no value, which is its choice (log entry 14). -/
def Obligations.KeyPortFollowsTheKeyIndex : Prop :=
  (∀ p a : BitVec 8, ksAddr .advanceEncrypt p = some a ↔ 1 ≤ p.toNat ∧ p.toNat ≤ 132 ∧ a.toNat = p.toNat - 1) ∧
  (∀ p a : BitVec 8, ksAddr .advanceDecrypt p = some a ↔
    (1 ≤ p.toNat ∧ p.toNat ≤ 4 ∧ a.toNat = p.toNat + 127) ∨ (5 ≤ p.toNat ∧ p.toNat ≤ 132 ∧ a.toNat = 132 - p.toNat)) ∧
  (∀ (d : Direction) (s : State) (w : Word), ksData s (advanceOf d) = some w ↔
    ∃ idx : Fin 132, ksAddr (advanceOf d) s.progress = some (BitVec.ofNat 8 idx.val) ∧ w = s.ks.read idx) ∧
  (∀ (s : State) (blk : BitVec 128), ∀ i ∈ [Instr.nop, .reset, .load blk],
    ksAddr i s.progress = none ∧ ksData s i = none)
end

