-- ==== Sys2Proof/Laws/Block.lean ====
section
/-! SUPPORT. The views of a block: words, half-words, bits. -/

namespace Sys2Proof.Machine

@[simp] theorem Block.get_zero (b : Block) : b.get 0 = b.w0 := rfl
@[simp] theorem Block.get_one (b : Block) : b.get 1 = b.w1 := rfl
@[simp] theorem Block.get_two (b : Block) : b.get 2 = b.w2 := rfl
@[simp] theorem Block.get_three (b : Block) : b.get 3 = b.w3 := rfl
@[simp] theorem Block.set_zero (b : Block) (v : Word) : b.set 0 v = ⟨v, b.w1, b.w2, b.w3⟩ := rfl
@[simp] theorem Block.set_one (b : Block) (v : Word) : b.set 1 v = ⟨b.w0, v, b.w2, b.w3⟩ := rfl
@[simp] theorem Block.set_two (b : Block) (v : Word) : b.set 2 v = ⟨b.w0, b.w1, v, b.w3⟩ := rfl
@[simp] theorem Block.set_three (b : Block) (v : Word) : b.set 3 v = ⟨b.w0, b.w1, b.w2, v⟩ := rfl

/-- A read of the word just written gives the value written. -/
@[simp] theorem Block.get_set_same (b : Block) (i : Fin 4) (v : Word) : (b.set i v).get i = v := by
  fin_cases i <;> rfl

/-- A write of one word leaves the other three alone. -/
theorem Block.get_set_other (b : Block) (i j : Fin 4) (v : Word) (h : j ≠ i) : (b.set i v).get j = b.get j := by
  fin_cases i <;> fin_cases j <;> first | rfl | exact absurd rfl h

/-- The second of two writes of one word stands. -/
@[simp] theorem Block.set_set (b : Block) (i : Fin 4) (v w : Word) : (b.set i v).set i w = b.set i w := by
  fin_cases i <;> rfl

/-- Writing back the word read changes nothing. -/
@[simp] theorem Block.set_get (b : Block) (i : Fin 4) : b.set i (b.get i) = b := by
  fin_cases i <;> rfl

@[simp] theorem Block.half_zero (b : Block) : b.half 0 = lo16 b.w0 := rfl
@[simp] theorem Block.half_one (b : Block) : b.half 1 = hi16 b.w0 := rfl
@[simp] theorem Block.half_two (b : Block) : b.half 2 = lo16 b.w1 := rfl
@[simp] theorem Block.half_three (b : Block) : b.half 3 = hi16 b.w1 := rfl
@[simp] theorem Block.half_four (b : Block) : b.half 4 = lo16 b.w2 := rfl
@[simp] theorem Block.half_five (b : Block) : b.half 5 = hi16 b.w2 := rfl
@[simp] theorem Block.half_six (b : Block) : b.half 6 = lo16 b.w3 := rfl
@[simp] theorem Block.half_seven (b : Block) : b.half 7 = hi16 b.w3 := rfl

@[simp] theorem lo16_cat (a b : Half) : lo16 (cat a b) = b := BitVec.extractLsb'_append_eq_right

@[simp] theorem hi16_cat (a b : Half) : hi16 (cat a b) = a := BitVec.extractLsb'_append_eq_left

/-- Bit i of a concatenation. -/
theorem getLsbD_cat (a b : Half) (i : Nat) :
    (cat a b).getLsbD i = if i < 16 then b.getLsbD i else a.getLsbD (i - 16) := BitVec.getLsbD_append

@[simp] theorem cat_hi16_lo16 (v : Word) : cat (hi16 v) (lo16 v) = v := by
  refine BitVec.eq_of_getLsbD_eq fun i hi => ?_
  rw [getLsbD_cat, hi16, lo16, BitVec.getLsbD_extractLsb', BitVec.getLsbD_extractLsb']
  by_cases h : i < 16
  · simp [h]
  · simp [h, show i - 16 < 16 by omega, show 16 + (i - 16) = i by omega]

/-- Halves are XORed independently. -/
theorem cat_xor_cat (a b c d : Half) : cat a b ^^^ cat c d = cat (a ^^^ c) (b ^^^ d) := by
  refine BitVec.eq_of_getLsbD_eq fun i hi => ?_
  simp only [BitVec.getLsbD_xor, getLsbD_cat]
  split <;> rfl

@[simp] theorem lo16_xor (v w : Word) : lo16 (v ^^^ w) = lo16 v ^^^ lo16 w := by
  refine BitVec.eq_of_getLsbD_eq fun i hi => ?_
  simp [lo16, hi]

@[simp] theorem hi16_xor (v w : Word) : hi16 (v ^^^ w) = hi16 v ^^^ hi16 w := by
  refine BitVec.eq_of_getLsbD_eq fun i hi => ?_
  simp [hi16, hi]

/-- A rotation is the concatenation of 00_scope.md R9: `cat(v[15-n:0], v[15:16-n])`. -/
theorem rotl16_eq_append (v : Half) (n m i : Nat) (hn : n + m = 16) (h1 : 0 < m) (hi : i < 16) :
    (rotl16 v n).getLsbD i = (v.extractLsb' 0 m ++ v.extractLsb' m n).getLsbD i := by
  rw [rotl16, BitVec.getLsbD_append]
  simp only [BitVec.getLsbD_rotateLeft, BitVec.getLsbD_extractLsb', Nat.mod_eq_of_lt (show n < 16 by omega)]
  by_cases h : i < n
  · simp [h, show 16 - n = m by omega]
  · simp [h, hi, show i - n < m by omega]

end Sys2Proof.Machine
end

