-- ==== Sys2Proof/Laws/Decode.lean ====
section
/-! SUPPORT. The fields of a presented command, and what the second decoding stage selects at each `progress`. -/

namespace Sys2Proof

@[simp] theorem cmdField_append (blk : BitVec 128) (cmd : BitVec 3) : cmdField (blk ++ cmd : BitVec 131) = cmd := by
  unfold cmdField
  exact BitVec.extractLsb'_append_eq_right

@[simp] theorem blkField_append (blk : BitVec 128) (cmd : BitVec 3) : blkField (blk ++ cmd : BitVec 131) = blk := by
  unfold blkField
  exact BitVec.extractLsb'_append_eq_left

/-- The encoder puts the row's code in `cmd`. -/
@[simp] theorem cmdField_encode (i : Instr) : cmdField (encode i) = i.code := cmdField_append _ _

/-- The encoder puts LOAD's block in `blk`. -/
@[simp] theorem blkField_encode (i : Instr) : blkField (encode i) = i.operand := blkField_append _ _

/-! What stage 1 makes of each code, whatever stands on `blk`. -/

@[simp] theorem decode_nop (blk : BitVec 128) : decode (blk ++ 0b000#3 : BitVec 131) = .ok .nop := by
  rw [decode, cmdField_append]
  rfl

@[simp] theorem decode_reset (blk : BitVec 128) : decode (blk ++ 0b001#3 : BitVec 131) = .ok .reset := by
  rw [decode, cmdField_append]
  rfl

@[simp] theorem decode_load (blk : BitVec 128) : decode (blk ++ 0b010#3 : BitVec 131) = .ok (.load blk) := by
  rw [decode, cmdField_append, blkField_append]
  rfl

@[simp] theorem decode_reserved3 (blk : BitVec 128) : decode (blk ++ 0b011#3 : BitVec 131) = .error (.reservedCode 0b011#3) := by
  rw [decode, cmdField_append]
  rfl

@[simp] theorem decode_advanceEncrypt (blk : BitVec 128) : decode (blk ++ 0b100#3 : BitVec 131) = .ok .advanceEncrypt := by
  rw [decode, cmdField_append]
  rfl

@[simp] theorem decode_advanceDecrypt (blk : BitVec 128) : decode (blk ++ 0b101#3 : BitVec 131) = .ok .advanceDecrypt := by
  rw [decode, cmdField_append]
  rfl

@[simp] theorem decode_reserved6 (blk : BitVec 128) : decode (blk ++ 0b110#3 : BitVec 131) = .error (.reservedCode 0b110#3) := by
  rw [decode, cmdField_append]
  rfl

@[simp] theorem decode_reserved7 (blk : BitVec 128) : decode (blk ++ 0b111#3 : BitVec 131) = .error (.reservedCode 0b111#3) := by
  rw [decode, cmdField_append]
  rfl

theorem encStepAt_idle {p : BitVec 8} (h : p.toNat = 0) : encStepAt p = some .idle := by simp [encStepAt, h]

theorem encStepAt_round {p : BitVec 8} {k : Fin 128} (h : p.toNat = k.val + 1) (hk : k.val % 16 ≠ 15) :
    encStepAt p = some (.round k) := by
  have h1 : k.val + 1 ≤ 128 := k.isLt
  simp [encStepAt, h, hk, h1]

theorem encStepAt_roundL {p : BitVec 8} {k : Fin 128} (h : p.toNat = k.val + 1) (hk : k.val % 16 = 15) :
    encStepAt p = some (.roundL k) := by
  have h1 : k.val + 1 ≤ 128 := k.isLt
  simp [encStepAt, h, hk, h1]

theorem encStepAt_whiten {p : BitVec 8} {i : Fin 4} (h : p.toNat = 129 + i.val) :
    encStepAt p = some (.whiten i) := by
  have h1 : i.val < 4 := i.isLt
  simp [encStepAt, h, show ¬ 129 + i.val ≤ 128 by omega, show 129 + i.val ≤ 132 by omega]

theorem encStepAt_materialize {p : BitVec 8} (h : p.toNat = 133) : encStepAt p = some .materialize := by
  simp [encStepAt, h]

theorem encStepAt_terminate {p : BitVec 8} (h : p.toNat = 134) : encStepAt p = some .terminate := by
  simp [encStepAt, h]

theorem encStepAt_reserved {p : BitVec 8} (h : 135 ≤ p.toNat) : encStepAt p = none := by
  simp [encStepAt, show ¬ p.toNat = 0 by omega, show ¬ p.toNat ≤ 128 by omega, show ¬ p.toNat ≤ 132 by omega,
    show ¬ p.toNat = 133 by omega, show ¬ p.toNat = 134 by omega]

theorem decStepAt_idle {p : BitVec 8} (h : p.toNat = 0) : decStepAt p = some .idle := by simp [decStepAt, h]

theorem decStepAt_whiten {p : BitVec 8} {i : Fin 4} (h : p.toNat = i.val + 1) : decStepAt p = some (.whiten i) := by
  have h1 : i.val + 1 ≤ 4 := i.isLt
  simp [decStepAt, h, h1]

theorem decStepAt_round {p : BitVec 8} {k : Fin 128} (h : p.toNat + k.val = 132) (hk : k.val % 16 ≠ 15) :
    decStepAt p = some (.round k) := by
  have := k.isLt
  have e : 132 - p.toNat = k.val := by omega
  have h1 : ¬ p.toNat = 0 := by omega
  have h2 : ¬ p.toNat ≤ 4 := by omega
  have h3 : p.toNat ≤ 132 := by omega
  simp [decStepAt, h1, h2, h3, e, hk]

theorem decStepAt_linvRound {p : BitVec 8} {k : Fin 128} (h : p.toNat + k.val = 132) (hk : k.val % 16 = 15) :
    decStepAt p = some (.linvRound k) := by
  have := k.isLt
  have e : 132 - p.toNat = k.val := by omega
  have h1 : ¬ p.toNat = 0 := by omega
  have h2 : ¬ p.toNat ≤ 4 := by omega
  have h3 : p.toNat ≤ 132 := by omega
  simp [decStepAt, h1, h2, h3, e, hk]

theorem decStepAt_materialize {p : BitVec 8} (h : p.toNat = 133) : decStepAt p = some .materialize := by
  simp [decStepAt, h]

theorem decStepAt_terminate {p : BitVec 8} (h : p.toNat = 134) : decStepAt p = some .terminate := by
  simp [decStepAt, h]

theorem decStepAt_reserved {p : BitVec 8} (h : 135 ≤ p.toNat) : decStepAt p = none := by
  simp [decStepAt, show ¬ p.toNat = 0 by omega, show ¬ p.toNat ≤ 4 by omega, show ¬ p.toNat ≤ 132 by omega,
    show ¬ p.toNat = 133 by omega, show ¬ p.toNat = 134 by omega]

/-- Once for all: what stage 2 finds in the encryption direction, and at which `progress` it finds it. -/
theorem encStepAt_spec (p : BitVec 8) :
    (p.toNat = 0 ∧ encStepAt p = some .idle) ∨
    (∃ k : Fin 128, p.toNat = k.val + 1 ∧ k.val % 16 ≠ 15 ∧ encStepAt p = some (.round k)) ∨
    (∃ k : Fin 128, p.toNat = k.val + 1 ∧ k.val % 16 = 15 ∧ encStepAt p = some (.roundL k)) ∨
    (∃ i : Fin 4, p.toNat = 129 + i.val ∧ encStepAt p = some (.whiten i)) ∨
    (p.toNat = 133 ∧ encStepAt p = some .materialize) ∨
    (p.toNat = 134 ∧ encStepAt p = some .terminate) ∨
    (135 ≤ p.toNat ∧ encStepAt p = none) := by
  by_cases h0 : p.toNat = 0
  · exact .inl ⟨h0, encStepAt_idle h0⟩
  by_cases h1 : p.toNat ≤ 128
  · have hk : p.toNat = (⟨p.toNat - 1, by omega⟩ : Fin 128).val + 1 := by show p.toNat = p.toNat - 1 + 1; omega
    by_cases hm : (p.toNat - 1) % 16 = 15
    · exact .inr (.inr (.inl ⟨_, hk, hm, encStepAt_roundL hk hm⟩))
    · exact .inr (.inl ⟨_, hk, hm, encStepAt_round hk hm⟩)
  by_cases h2 : p.toNat ≤ 132
  · have hi : p.toNat = 129 + (⟨p.toNat - 129, by omega⟩ : Fin 4).val := by
      show p.toNat = 129 + (p.toNat - 129); omega
    exact .inr (.inr (.inr (.inl ⟨_, hi, encStepAt_whiten hi⟩)))
  by_cases h3 : p.toNat = 133
  · exact .inr (.inr (.inr (.inr (.inl ⟨h3, encStepAt_materialize h3⟩))))
  by_cases h4 : p.toNat = 134
  · exact .inr (.inr (.inr (.inr (.inr (.inl ⟨h4, encStepAt_terminate h4⟩)))))
  · have h5 : 135 ≤ p.toNat := by omega
    exact .inr (.inr (.inr (.inr (.inr (.inr ⟨h5, encStepAt_reserved h5⟩)))))

/-- Once for all: what stage 2 finds in the decryption direction, and at which `progress` it finds it. -/
theorem decStepAt_spec (p : BitVec 8) :
    (p.toNat = 0 ∧ decStepAt p = some .idle) ∨
    (∃ i : Fin 4, p.toNat = i.val + 1 ∧ decStepAt p = some (.whiten i)) ∨
    (∃ k : Fin 128, p.toNat + k.val = 132 ∧ k.val % 16 ≠ 15 ∧ decStepAt p = some (.round k)) ∨
    (∃ k : Fin 128, p.toNat + k.val = 132 ∧ k.val % 16 = 15 ∧ decStepAt p = some (.linvRound k)) ∨
    (p.toNat = 133 ∧ decStepAt p = some .materialize) ∨
    (p.toNat = 134 ∧ decStepAt p = some .terminate) ∨
    (135 ≤ p.toNat ∧ decStepAt p = none) := by
  by_cases h0 : p.toNat = 0
  · exact .inl ⟨h0, decStepAt_idle h0⟩
  by_cases h1 : p.toNat ≤ 4
  · have hi : p.toNat = (⟨p.toNat - 1, by omega⟩ : Fin 4).val + 1 := by show p.toNat = p.toNat - 1 + 1; omega
    exact .inr (.inl ⟨_, hi, decStepAt_whiten hi⟩)
  by_cases h2 : p.toNat ≤ 132
  · have hk : p.toNat + (⟨132 - p.toNat, by omega⟩ : Fin 128).val = 132 := by
      show p.toNat + (132 - p.toNat) = 132; omega
    by_cases hm : (132 - p.toNat) % 16 = 15
    · exact .inr (.inr (.inr (.inl ⟨_, hk, hm, decStepAt_linvRound hk hm⟩)))
    · exact .inr (.inr (.inl ⟨_, hk, hm, decStepAt_round hk hm⟩))
  by_cases h3 : p.toNat = 133
  · exact .inr (.inr (.inr (.inr (.inl ⟨h3, decStepAt_materialize h3⟩))))
  by_cases h4 : p.toNat = 134
  · exact .inr (.inr (.inr (.inr (.inr (.inl ⟨h4, decStepAt_terminate h4⟩)))))
  · have h5 : 135 ≤ p.toNat := by omega
    exact .inr (.inr (.inr (.inr (.inr (.inr ⟨h5, decStepAt_reserved h5⟩)))))

end Sys2Proof
end

