-- ==== Sys2Proof/Laws/Memory.lean ====
section
/-! SUPPORT. The key schedule: a read after a write, and the canonical form that every memory operation keeps. -/

namespace Sys2Proof.Machine

theorem Memory.lookup_eq_unlisted_of_wfFrom (cells : List (Nat × Word)) (lo a : Nat) (ha : a < lo)
    (h : Memory.wfFrom lo cells = true) : Memory.lookup cells a = Memory.unlisted := by
  induction cells generalizing lo with
  | nil => rfl
  | cons c rest ih =>
    simp only [Memory.wfFrom, Bool.and_eq_true, decide_eq_true_eq] at h
    rw [Memory.lookup, if_neg (by omega)]
    exact ih (c.1 + 1) (by omega) h.2

theorem Memory.lookup_insertCell_same (cells : List (Nat × Word)) (lo idx : Nat) (v : Word)
    (h : Memory.wfFrom lo cells = true) : Memory.lookup (Memory.insertCell cells idx v) idx = v := by
  induction cells generalizing lo with
  | nil => by_cases hv : v = Memory.unlisted <;> simp [Memory.insertCell, Memory.lookup, hv]
  | cons c rest ih =>
    have h' := h
    simp only [Memory.wfFrom, Bool.and_eq_true, decide_eq_true_eq] at h
    rw [Memory.insertCell]
    split
    · split
      · rename_i hlt hv
        rw [Memory.lookup, if_neg (by omega), hv]
        exact Memory.lookup_eq_unlisted_of_wfFrom rest _ idx (by omega) h.2
      · simp [Memory.lookup]
    · split
      · split
        · rename_i hv
          rw [hv]
          exact Memory.lookup_eq_unlisted_of_wfFrom rest _ idx (by omega) h.2
        · simp [Memory.lookup]
      · rw [Memory.lookup, if_neg (by omega)]
        exact ih (c.1 + 1) h.2

theorem Memory.lookup_insertCell_other (cells : List (Nat × Word)) (idx a : Nat) (v : Word) (h : a ≠ idx) :
    Memory.lookup (Memory.insertCell cells idx v) a = Memory.lookup cells a := by
  induction cells with
  | nil =>
    by_cases hv : v = Memory.unlisted
    · simp [Memory.insertCell, hv]
    · simp [Memory.insertCell, Memory.lookup, hv, Ne.symm h]
  | cons c rest ih =>
    rw [Memory.insertCell]
    split
    · split
      · rfl
      · simp [Memory.lookup, Ne.symm h]
    · split
      · rename_i hc
        split <;> simp [Memory.lookup, ← hc, Ne.symm h]
      · by_cases hc : c.1 = a <;> simp [Memory.lookup, hc, ih]

theorem Memory.wfFrom_mono (cells : List (Nat × Word)) (lo lo' : Nat) (hl : lo' ≤ lo)
    (h : Memory.wfFrom lo cells = true) : Memory.wfFrom lo' cells = true := by
  cases cells with
  | nil => rfl
  | cons c rest =>
    simp only [Memory.wfFrom, Bool.and_eq_true, decide_eq_true_eq] at h ⊢
    exact ⟨⟨⟨by omega, h.1.1.2⟩, h.1.2⟩, h.2⟩

theorem Memory.wfFrom_insertCell (cells : List (Nat × Word)) (lo idx : Nat) (v : Word) (hlo : lo ≤ idx)
    (hi : idx < Config.ksLen) (h : Memory.wfFrom lo cells = true) :
    Memory.wfFrom lo (Memory.insertCell cells idx v) = true := by
  induction cells generalizing lo with
  | nil => by_cases hv : v = Memory.unlisted <;> simp [Memory.insertCell, Memory.wfFrom, hv, hlo]; exact hi
  | cons c rest ih =>
    have h' := h
    simp only [Memory.wfFrom, Bool.and_eq_true, decide_eq_true_eq] at h
    rw [Memory.insertCell]
    split
    · split
      · exact h'
      · rename_i hlt hv
        simp only [Memory.wfFrom, Bool.and_eq_true, decide_eq_true_eq]
        exact ⟨⟨⟨hlo, hi⟩, hv⟩, ⟨⟨by omega, h.1.1.2⟩, h.1.2⟩, h.2⟩
    · split
      · split
        · exact Memory.wfFrom_mono rest _ _ (by omega) h.2
        · rename_i hc hv
          simp only [Memory.wfFrom, Bool.and_eq_true, decide_eq_true_eq]
          exact ⟨⟨⟨hlo, hi⟩, hv⟩, hc ▸ h.2⟩
      · simp only [Memory.wfFrom, Bool.and_eq_true, decide_eq_true_eq]
        exact ⟨h.1, ih (c.1 + 1) (by omega) h.2⟩

/-- A write keeps the canonical form. -/
theorem Memory.wf_write (m : Memory) (idx : Fin Config.ksLen) (v : Word) (h : m.wf = true) :
    (m.write idx v).wf = true :=
  Memory.wfFrom_insertCell m.cells 0 idx.val v (Nat.zero_le _) idx.isLt h

/-- A read after a write to the same index gives the value written. -/
theorem Memory.read_write_same (m : Memory) (idx : Fin Config.ksLen) (v : Word) (h : m.wf = true) :
    (m.write idx v).read idx = v :=
  Memory.lookup_insertCell_same m.cells 0 idx.val v h

/-- A write leaves every other index alone. -/
theorem Memory.read_write_other (m : Memory) (idx a : Fin Config.ksLen) (v : Word) (h : a ≠ idx) :
    (m.write idx v).read a = m.read a :=
  Memory.lookup_insertCell_other m.cells idx.val a.val v (fun e => h (Fin.ext e))

theorem Memory.wfFrom_cellsOf (ws : List Word) (lo : Nat) : Memory.wfFrom lo (Memory.cellsOf lo ws) = true := by
  induction ws generalizing lo with
  | nil => rfl
  | cons v rest ih =>
    rw [Memory.cellsOf]
    split
    · rename_i h
      simp only [Memory.wfFrom, Bool.and_eq_true, decide_eq_true_eq]
      exact ⟨⟨⟨Nat.le_refl _, h.1⟩, h.2⟩, ih (lo + 1)⟩
    · exact Memory.wfFrom_mono _ _ _ (Nat.le_succ lo) (ih (lo + 1))

/-- A schedule given in order is in canonical form. -/
theorem Memory.wf_ofWords (ws : List Word) : (Memory.ofWords ws).wf = true := Memory.wfFrom_cellsOf ws 0

theorem Memory.lookup_out_of_range (cells : List (Nat × Word)) (lo a : Nat) (ha : Config.ksLen ≤ a)
    (h : Memory.wfFrom lo cells = true) : Memory.lookup cells a = Memory.unlisted := by
  induction cells generalizing lo with
  | nil => rfl
  | cons c rest ih =>
    simp only [Memory.wfFrom, Bool.and_eq_true, decide_eq_true_eq] at h
    rw [Memory.lookup, if_neg (by omega)]
    exact ih (c.1 + 1) h.2

theorem Memory.cells_eq_of_lookup_eq (cs ds : List (Nat × Word)) (lo : Nat) (hc : Memory.wfFrom lo cs = true)
    (hd : Memory.wfFrom lo ds = true) (h : ∀ a, Memory.lookup cs a = Memory.lookup ds a) : cs = ds := by
  induction cs generalizing ds lo with
  | nil =>
    cases ds with
    | nil => rfl
    | cons d ds =>
      simp only [Memory.wfFrom, Bool.and_eq_true, decide_eq_true_eq] at hd
      have := h d.1
      simp [Memory.lookup] at this
      exact absurd this.symm hd.1.2
  | cons c cs ih =>
    have hc' := hc
    simp only [Memory.wfFrom, Bool.and_eq_true, decide_eq_true_eq] at hc
    cases ds with
    | nil =>
      have := h c.1
      simp [Memory.lookup] at this
      exact absurd this hc.1.2
    | cons d ds =>
      have hd' := hd
      simp only [Memory.wfFrom, Bool.and_eq_true, decide_eq_true_eq] at hd
      have hlow : ∀ a, a < c.1 → Memory.lookup (c :: cs) a = Memory.unlisted := fun a ha => by
        rw [Memory.lookup, if_neg (by omega)]
        exact Memory.lookup_eq_unlisted_of_wfFrom cs (c.1 + 1) a (by omega) hc.2
      have hlow' : ∀ a, a < d.1 → Memory.lookup (d :: ds) a = Memory.unlisted := fun a ha => by
        rw [Memory.lookup, if_neg (by omega)]
        exact Memory.lookup_eq_unlisted_of_wfFrom ds (d.1 + 1) a (by omega) hd.2
      have hcd : c.1 = d.1 := by
        rcases Nat.lt_trichotomy c.1 d.1 with hlt | heq | hgt
        · have := h c.1
          rw [hlow' _ hlt] at this
          simp [Memory.lookup] at this
          exact absurd this hc.1.2
        · exact heq
        · have := h d.1
          rw [hlow _ hgt] at this
          simp [Memory.lookup] at this
          exact absurd this.symm hd.1.2
      have hv : c.2 = d.2 := by
        have := h c.1
        simpa [Memory.lookup, hcd] using this
      have hrest : cs = ds := by
        refine ih ds (c.1 + 1) hc.2 (hcd ▸ hd.2) (fun a => ?_)
        by_cases ha : a < c.1 + 1
        · rw [Memory.lookup_eq_unlisted_of_wfFrom cs _ a ha hc.2,
            Memory.lookup_eq_unlisted_of_wfFrom ds _ a (hcd ▸ ha) hd.2]
        · have := h a
          rwa [Memory.lookup, Memory.lookup, if_neg (by omega), if_neg (by omega)] at this
      rw [hrest, Prod.ext hcd hv]

/-- Two canonical schedules that read the same everywhere are the same data. -/
theorem Memory.ext_of_wf (m n : Memory) (hm : m.wf = true) (hn : n.wf = true)
    (h : ∀ idx : Fin Config.ksLen, m.read idx = n.read idx) : m = n := by
  cases m with
  | mk cs =>
    cases n with
    | mk ds =>
      have : cs = ds := Memory.cells_eq_of_lookup_eq cs ds 0 hm hn (fun a => by
        by_cases ha : a < Config.ksLen
        · exact h ⟨a, ha⟩
        · rw [Memory.lookup_out_of_range cs 0 a (Nat.le_of_not_lt ha) hm,
            Memory.lookup_out_of_range ds 0 a (Nat.le_of_not_lt ha) hn])
      rw [this]

/-- The schedule at reset has the canonical form. -/
theorem State.reset_ks_wf : State.reset.ks.wf = true := rfl

end Sys2Proof.Machine
end

