-- ==== Sys2Proof/Laws/State.lean ====
section
/-! SUPPORT. One lemma per field per update of the state, so that no proof unfolds a record update. -/

namespace Sys2Proof.Machine

@[simp] theorem State.setProgress_progress (s : State) (p : BitVec 8) : (s.setProgress p).progress = p := rfl
@[simp] theorem State.setProgress_x (s : State) (p : BitVec 8) : (s.setProgress p).x = s.x := rfl
@[simp] theorem State.setProgress_out (s : State) (p : BitVec 8) : (s.setProgress p).out = s.out := rfl
@[simp] theorem State.setProgress_ks (s : State) (p : BitVec 8) : (s.setProgress p).ks = s.ks := rfl
@[simp] theorem State.setProgress_result (s : State) (p : BitVec 8) : (s.setProgress p).result = s.result := rfl
@[simp] theorem State.setProgress_inputs (s : State) (p : BitVec 8) : (s.setProgress p).inputs = s.inputs := rfl
@[simp] theorem State.setProgress_resetDraws (s : State) (p : BitVec 8) : (s.setProgress p).resetDraws = s.resetDraws := rfl

@[simp] theorem State.setX_progress (s : State) (b : Block) : (s.setX b).progress = s.progress := rfl
@[simp] theorem State.setX_x (s : State) (b : Block) : (s.setX b).x = b := rfl
@[simp] theorem State.setX_out (s : State) (b : Block) : (s.setX b).out = s.out := rfl
@[simp] theorem State.setX_ks (s : State) (b : Block) : (s.setX b).ks = s.ks := rfl
@[simp] theorem State.setX_result (s : State) (b : Block) : (s.setX b).result = s.result := rfl
@[simp] theorem State.setX_inputs (s : State) (b : Block) : (s.setX b).inputs = s.inputs := rfl
@[simp] theorem State.setX_resetDraws (s : State) (b : Block) : (s.setX b).resetDraws = s.resetDraws := rfl

@[simp] theorem State.setOut_progress (s : State) (b : Block) : (s.setOut b).progress = s.progress := rfl
@[simp] theorem State.setOut_x (s : State) (b : Block) : (s.setOut b).x = s.x := rfl
@[simp] theorem State.setOut_out (s : State) (b : Block) : (s.setOut b).out = b := rfl
@[simp] theorem State.setOut_ks (s : State) (b : Block) : (s.setOut b).ks = s.ks := rfl
@[simp] theorem State.setOut_result (s : State) (b : Block) : (s.setOut b).result = s.result := rfl
@[simp] theorem State.setOut_inputs (s : State) (b : Block) : (s.setOut b).inputs = s.inputs := rfl
@[simp] theorem State.setOut_resetDraws (s : State) (b : Block) : (s.setOut b).resetDraws = s.resetDraws := rfl

@[simp] theorem State.respond_progress (s : State) (r : Result) : (s.respond r).progress = s.progress := rfl
@[simp] theorem State.respond_x (s : State) (r : Result) : (s.respond r).x = s.x := rfl
@[simp] theorem State.respond_out (s : State) (r : Result) : (s.respond r).out = s.out := rfl
@[simp] theorem State.respond_ks (s : State) (r : Result) : (s.respond r).ks = s.ks := rfl
@[simp] theorem State.respond_result (s : State) (r : Result) : (s.respond r).result = r := rfl
@[simp] theorem State.respond_inputs (s : State) (r : Result) : (s.respond r).inputs = s.inputs := rfl
@[simp] theorem State.respond_resetDraws (s : State) (r : Result) : (s.respond r).resetDraws = s.resetDraws := rfl

@[simp] theorem State.popInput_progress (s : State) : (s.popInput).progress = s.progress := rfl
@[simp] theorem State.popInput_x (s : State) : (s.popInput).x = s.x := rfl
@[simp] theorem State.popInput_out (s : State) : (s.popInput).out = s.out := rfl
@[simp] theorem State.popInput_ks (s : State) : (s.popInput).ks = s.ks := rfl
@[simp] theorem State.popInput_result (s : State) : (s.popInput).result = s.result := rfl
@[simp] theorem State.popInput_inputs (s : State) : (s.popInput).inputs = s.inputs.tail := rfl
@[simp] theorem State.popInput_resetDraws (s : State) : (s.popInput).resetDraws = s.resetDraws := rfl

@[simp] theorem State.present_progress (s : State) (p : PortInput) : (s.present p).progress = s.progress := rfl
@[simp] theorem State.present_x (s : State) (p : PortInput) : (s.present p).x = s.x := rfl
@[simp] theorem State.present_out (s : State) (p : PortInput) : (s.present p).out = s.out := rfl
@[simp] theorem State.present_ks (s : State) (p : PortInput) : (s.present p).ks = s.ks := rfl
@[simp] theorem State.present_result (s : State) (p : PortInput) : (s.present p).result = s.result := rfl
@[simp] theorem State.present_inputs (s : State) (p : PortInput) : (s.present p).inputs = p :: s.inputs := rfl
@[simp] theorem State.present_resetDraws (s : State) (p : PortInput) : (s.present p).resetDraws = s.resetDraws := rfl

@[simp] theorem raise_progress (c : Condition) (s : State) : (raise c s).progress = s.progress := rfl
@[simp] theorem raise_x (c : Condition) (s : State) : (raise c s).x = s.x := rfl
@[simp] theorem raise_out (c : Condition) (s : State) : (raise c s).out = s.out := rfl
@[simp] theorem raise_ks (c : Condition) (s : State) : (raise c s).ks = s.ks := rfl
@[simp] theorem raise_result (c : Condition) (s : State) : (raise c s).result = resultOf c := rfl
@[simp] theorem raise_inputs (c : Condition) (s : State) : (raise c s).inputs = s.inputs := rfl
@[simp] theorem raise_resetDraws (c : Condition) (s : State) : (raise c s).resetDraws = s.resetDraws := rfl

@[simp] theorem workStep_progress (b : Block) (s : State) : (workStep b s).progress = s.progress + 1 := rfl
@[simp] theorem workStep_x (b : Block) (s : State) : (workStep b s).x = b := rfl
@[simp] theorem workStep_out (b : Block) (s : State) : (workStep b s).out = s.out := rfl
@[simp] theorem workStep_ks (b : Block) (s : State) : (workStep b s).ks = s.ks := rfl
@[simp] theorem workStep_result (b : Block) (s : State) : (workStep b s).result = Result.pending := rfl
@[simp] theorem workStep_inputs (b : Block) (s : State) : (workStep b s).inputs = s.inputs := rfl
@[simp] theorem workStep_resetDraws (b : Block) (s : State) : (workStep b s).resetDraws = s.resetDraws := rfl

@[simp] theorem materialize_progress (s : State) : (materialize s).progress = 134 := rfl
@[simp] theorem materialize_x (s : State) : (materialize s).x = s.x := rfl
@[simp] theorem materialize_out (s : State) : (materialize s).out = s.x := rfl
@[simp] theorem materialize_ks (s : State) : (materialize s).ks = s.ks := rfl
@[simp] theorem materialize_result (s : State) : (materialize s).result = Result.pending := rfl
@[simp] theorem materialize_inputs (s : State) : (materialize s).inputs = s.inputs := rfl
@[simp] theorem materialize_resetDraws (s : State) : (materialize s).resetDraws = s.resetDraws := rfl

@[simp] theorem terminate_progress (s : State) : (terminate s).progress = 0 := rfl
@[simp] theorem terminate_x (s : State) : (terminate s).x = s.x := rfl
@[simp] theorem terminate_out (s : State) : (terminate s).out = s.out := rfl
@[simp] theorem terminate_ks (s : State) : (terminate s).ks = s.ks := rfl
@[simp] theorem terminate_result (s : State) : (terminate s).result = Result.completed := rfl
@[simp] theorem terminate_inputs (s : State) : (terminate s).inputs = s.inputs := rfl
@[simp] theorem terminate_resetDraws (s : State) : (terminate s).resetDraws = s.resetDraws := rfl

@[simp] theorem idle_progress (s : State) : (idle s).progress = s.progress := rfl
@[simp] theorem idle_x (s : State) : (idle s).x = s.x := rfl
@[simp] theorem idle_out (s : State) : (idle s).out = s.out := rfl
@[simp] theorem idle_ks (s : State) : (idle s).ks = s.ks := rfl
@[simp] theorem idle_result (s : State) : (idle s).result = Result.pending := rfl
@[simp] theorem idle_inputs (s : State) : (idle s).inputs = s.inputs := rfl
@[simp] theorem idle_resetDraws (s : State) : (idle s).resetDraws = s.resetDraws := rfl

@[simp] theorem hardwareReset_progress (s : State) : (hardwareReset s).progress = 0 := rfl
@[simp] theorem hardwareReset_x (s : State) : (hardwareReset s).x = resetX s.resetDraws := rfl
@[simp] theorem hardwareReset_out (s : State) : (hardwareReset s).out = resetOut s.resetDraws := rfl
@[simp] theorem hardwareReset_ks (s : State) : (hardwareReset s).ks = s.ks := rfl
@[simp] theorem hardwareReset_result (s : State) : (hardwareReset s).result = Result.pending := rfl
@[simp] theorem hardwareReset_inputs (s : State) : (hardwareReset s).inputs = s.inputs := rfl
@[simp] theorem hardwareReset_resetDraws (s : State) : (hardwareReset s).resetDraws = s.resetDraws + 1 := rfl

end Sys2Proof.Machine
end

