-- ==== Sys2Proof/Laws/Ops.lean ====
section
/-! SUPPORT. For each shared operation, once, everything it does. -/

namespace Sys2Proof.Machine

theorem raise_eq (c : Condition) (s : State) :
    raise c s = { s with result := ⟨false, false, faultCodeOf c⟩ } := rfl

theorem workStep_eq (b : Block) (s : State) :
    workStep b s = { s with x := b, progress := s.progress + 1, result := ⟨false, false, 0b00#2⟩ } := rfl

theorem materialize_eq (s : State) :
    materialize s = { s with out := s.x, progress := 134, result := ⟨false, false, 0b00#2⟩ } := rfl

theorem terminate_eq (s : State) : terminate s = { s with progress := 0, result := ⟨false, true, 0b00#2⟩ } := rfl

theorem idle_eq (s : State) : idle s = { s with result := ⟨false, false, 0b00#2⟩ } := rfl

theorem popInput_eq (s : State) : s.popInput = { s with inputs := s.inputs.tail } := rfl

theorem PortInput.word_ofWord (w : CommandWord) : (PortInput.ofWord w).word = w := by
  unfold PortInput.word PortInput.ofWord cmdField blkField
  ext i hi
  simp only [BitVec.getElem_append, BitVec.getElem_extractLsb']
  split
  · simp [← BitVec.getLsbD_eq_getElem]
  · rw [← BitVec.getLsbD_eq_getElem]; congr 1; omega

/-- Once for all: what a clock edge can do. -/
theorem step_cases (s : State) :
    (s.nextInput.rst = true ∧ step s = .next (hardwareReset s.popInput)) ∨
    (∃ i, s.nextInput.rst = false ∧ decode s.nextInput.word = .ok i ∧ step s = exec i s.popInput) ∨
    (∃ e, s.nextInput.rst = false ∧ decode s.nextInput.word = .error e ∧
      step s = .next (raise .illegalCommand s.popInput)) := by
  cases hr : s.nextInput.rst with
  | true => exact .inl ⟨rfl, by simp [step, clockEdge, hr]⟩
  | false =>
    cases hd : decode s.nextInput.word with
    | ok i => exact .inr (.inl ⟨i, rfl, rfl, by simp [step, clockEdge, hr, hd]⟩)
    | error e => exact .inr (.inr ⟨e, rfl, rfl, by simp [step, clockEdge, hr, hd]⟩)

/-- Once for all: what ADVANCE_ENCRYPT can do. -/
theorem execAdvanceEncrypt_cases (s : State) :
    (s.progress.toNat = 0 ∧ execAdvanceEncrypt s = .next (idle s)) ∨
    (∃ k : Fin 128, s.progress.toNat = k.val + 1 ∧ k.val % 16 ≠ 15 ∧
      execAdvanceEncrypt s = .next (encRound k s)) ∨
    (∃ k : Fin 128, s.progress.toNat = k.val + 1 ∧ k.val % 16 = 15 ∧
      execAdvanceEncrypt s = .next (encRoundL k s)) ∨
    (∃ i : Fin 4, s.progress.toNat = 129 + i.val ∧ execAdvanceEncrypt s = .next (whiten i s)) ∨
    (s.progress.toNat = 133 ∧ execAdvanceEncrypt s = .next (materialize s)) ∨
    (s.progress.toNat = 134 ∧ execAdvanceEncrypt s = .next (terminate s)) ∨
    (135 ≤ s.progress.toNat ∧ execAdvanceEncrypt s = .next (raise .illegalProgress s)) := by
  rcases encStepAt_spec s.progress with ⟨h, e⟩ | ⟨k, h, hm, e⟩ | ⟨k, h, hm, e⟩ | ⟨i, h, e⟩ | ⟨h, e⟩ | ⟨h, e⟩ | ⟨h, e⟩ <;>
    rw [execAdvanceEncrypt, e]
  · exact .inl ⟨h, rfl⟩
  · exact .inr (.inl ⟨k, h, hm, rfl⟩)
  · exact .inr (.inr (.inl ⟨k, h, hm, rfl⟩))
  · exact .inr (.inr (.inr (.inl ⟨i, h, rfl⟩)))
  · exact .inr (.inr (.inr (.inr (.inl ⟨h, rfl⟩))))
  · exact .inr (.inr (.inr (.inr (.inr (.inl ⟨h, rfl⟩)))))
  · exact .inr (.inr (.inr (.inr (.inr (.inr ⟨h, rfl⟩)))))

/-- Once for all: what ADVANCE_DECRYPT can do. -/
theorem execAdvanceDecrypt_cases (s : State) :
    (s.progress.toNat = 0 ∧ execAdvanceDecrypt s = .next (idle s)) ∨
    (∃ i : Fin 4, s.progress.toNat = i.val + 1 ∧ execAdvanceDecrypt s = .next (whiten i s)) ∨
    (∃ k : Fin 128, s.progress.toNat + k.val = 132 ∧ k.val % 16 ≠ 15 ∧
      execAdvanceDecrypt s = .next (decRound k s)) ∨
    (∃ k : Fin 128, s.progress.toNat + k.val = 132 ∧ k.val % 16 = 15 ∧
      execAdvanceDecrypt s = .next (decLinvRound k s)) ∨
    (s.progress.toNat = 133 ∧ execAdvanceDecrypt s = .next (materialize s)) ∨
    (s.progress.toNat = 134 ∧ execAdvanceDecrypt s = .next (terminate s)) ∨
    (135 ≤ s.progress.toNat ∧ execAdvanceDecrypt s = .next (raise .illegalProgress s)) := by
  rcases decStepAt_spec s.progress with ⟨h, e⟩ | ⟨i, h, e⟩ | ⟨k, h, hm, e⟩ | ⟨k, h, hm, e⟩ | ⟨h, e⟩ | ⟨h, e⟩ | ⟨h, e⟩ <;>
    rw [execAdvanceDecrypt, e]
  · exact .inl ⟨h, rfl⟩
  · exact .inr (.inl ⟨i, h, rfl⟩)
  · exact .inr (.inr (.inl ⟨k, h, hm, rfl⟩))
  · exact .inr (.inr (.inr (.inl ⟨k, h, hm, rfl⟩)))
  · exact .inr (.inr (.inr (.inr (.inl ⟨h, rfl⟩))))
  · exact .inr (.inr (.inr (.inr (.inr (.inl ⟨h, rfl⟩)))))
  · exact .inr (.inr (.inr (.inr (.inr (.inr ⟨h, rfl⟩)))))

/-- Once for all: what LOAD can do. -/
theorem execLoad_cases (blk : BitVec 128) (s : State) :
    (s.progress = 0 ∧ execLoad blk s = .next (((s.setX (Block.ofBits blk)).setProgress 1).respond Result.loaded)) ∨
    (s.progress ≠ 0 ∧ execLoad blk s = .next (raise .loadRejected s)) := by
  by_cases h : s.progress = 0
  · exact .inl ⟨h, if_pos h⟩
  · exact .inr ⟨h, if_neg h⟩

theorem provideKeySchedule_idle (m : Memory) (s : State) (h : s.busy = false) :
    provideKeySchedule m s = .next { s with ks := m } := by
  simp [provideKeySchedule, h]

theorem provideKeySchedule_busy (m : Memory) (s : State) (h : s.busy = true) :
    provideKeySchedule m s = .refused .keyScheduleChangedWhileBusy := by
  simp [provideKeySchedule, h]

end Sys2Proof.Machine
end

