-- ==== Sys2Proof/Laws/PerInstr.lean ====
section
/-! SUPPORT. Statements made one instruction at a time: every row's encoding matches that row of opcode_table.json. -/

namespace Sys2Proof.Laws

/-- `match` of each row of opcode_table.json (its `mask` is 0x7 in every row). -/
def RowMatch.tableMatch : Instr → Nat
  | .nop => 0x0
  | .reset => 0x1
  | .load _ => 0x2
  | .advanceEncrypt => 0x4
  | .advanceDecrypt => 0x5
  | .eIdle => 0x4
  | .eRound => 0x4
  | .eRoundL => 0x4
  | .eWhiten => 0x4
  | .eMaterialize => 0x4
  | .eTerminate => 0x4
  | .dIdle => 0x5
  | .dWhiten => 0x5
  | .dRound => 0x5
  | .dLinvRound => 0x5
  | .dMaterialize => 0x5
  | .dTerminate => 0x5

/-- The encoder's word of `i` selects `i`'s row: `w & mask == match` (30_encoding.md R93), the mask being `cmd`. -/
def RowMatch.Statement (i : Instr) : Prop := (cmdField (encode i)).toNat = RowMatch.tableMatch i

theorem RowMatch.load (blk : BitVec 128) : RowMatch.Statement (.load blk) := by
  rw [RowMatch.Statement, cmdField_encode]; rfl
theorem RowMatch.nop : RowMatch.Statement .nop := by rw [RowMatch.Statement, cmdField_encode]; rfl
theorem RowMatch.reset : RowMatch.Statement .reset := by rw [RowMatch.Statement, cmdField_encode]; rfl
theorem RowMatch.advanceEncrypt : RowMatch.Statement .advanceEncrypt := by rw [RowMatch.Statement, cmdField_encode]; rfl
theorem RowMatch.advanceDecrypt : RowMatch.Statement .advanceDecrypt := by rw [RowMatch.Statement, cmdField_encode]; rfl
theorem RowMatch.eIdle : RowMatch.Statement .eIdle := by rw [RowMatch.Statement, cmdField_encode]; rfl
theorem RowMatch.eRound : RowMatch.Statement .eRound := by rw [RowMatch.Statement, cmdField_encode]; rfl
theorem RowMatch.eRoundL : RowMatch.Statement .eRoundL := by rw [RowMatch.Statement, cmdField_encode]; rfl
theorem RowMatch.eWhiten : RowMatch.Statement .eWhiten := by rw [RowMatch.Statement, cmdField_encode]; rfl
theorem RowMatch.eMaterialize : RowMatch.Statement .eMaterialize := by rw [RowMatch.Statement, cmdField_encode]; rfl
theorem RowMatch.eTerminate : RowMatch.Statement .eTerminate := by rw [RowMatch.Statement, cmdField_encode]; rfl
theorem RowMatch.dIdle : RowMatch.Statement .dIdle := by rw [RowMatch.Statement, cmdField_encode]; rfl
theorem RowMatch.dWhiten : RowMatch.Statement .dWhiten := by rw [RowMatch.Statement, cmdField_encode]; rfl
theorem RowMatch.dRound : RowMatch.Statement .dRound := by rw [RowMatch.Statement, cmdField_encode]; rfl
theorem RowMatch.dLinvRound : RowMatch.Statement .dLinvRound := by rw [RowMatch.Statement, cmdField_encode]; rfl
theorem RowMatch.dMaterialize : RowMatch.Statement .dMaterialize := by rw [RowMatch.Statement, cmdField_encode]; rfl
theorem RowMatch.dTerminate : RowMatch.Statement .dTerminate := by rw [RowMatch.Statement, cmdField_encode]; rfl

end Sys2Proof.Laws
end

