-- ==== Sys2Proof/Laws/Safety.lean ====
section
/-! SUPPORT. What one more clock edge or command adds to a run. -/

namespace Sys2Proof.Machine

@[simp] theorem nextInput_present (s : State) (p : PortInput) : (s.present p).nextInput = p := rfl

@[simp] theorem popInput_present (s : State) (p : PortInput) : (s.present p).popInput = s := rfl

/-- Driving one input and taking the edge executes it on the state as it stood. -/
theorem step_present (s : State) (p : PortInput) : step (s.present p) = clockEdge exec p s := rfl

@[simp] theorem runEdges_nil (s : State) : runEdges [] s = .next s := rfl

theorem runEdges_cons {s t : State} {p : PortInput} (ps : List PortInput) (h : step (s.present p) = .next t) :
    runEdges (p :: ps) s = runEdges ps t := by
  simp [runEdges, h]

@[simp] theorem goodEdges_nil (s : State) : GoodEdges [] s := trivial

theorem goodEdges_cons {s t : State} {p : PortInput} (ps : List PortInput) (h : step (s.present p) = .next t) :
    GoodEdges (p :: ps) s ↔ t.result.fault = false ∧ GoodEdges ps t := by
  simp [GoodEdges, h]

theorem runCommands_cons {s t : State} {i : Instr} (is : List Instr) (h : exec i s = .next t) :
    runCommands (i :: is) s = runCommands is t := by
  simp [runCommands, h]

theorem goodRun_cons {s t : State} {i : Instr} (is : List Instr) (h : exec i s = .next t) :
    GoodRun (i :: is) s ↔ t.result.fault = false ∧ GoodRun is t := by
  simp [GoodRun, h]

end Sys2Proof.Machine
end

