-- ==== Sys2Proof/Tests/Slice0.lean ====
section
/-! SUPPORT. Small tests, expected values from spec/95_test_vectors.md and the worked examples of the rules, and for every
statement with hypotheses a concrete case that meets them. -/

namespace Sys2Proof.Tests

open Sys2Proof Sys2Proof.Machine

/-- An engine at `p` with working block `x`, schedule `ks`, and the marker of 95_test_vectors.md section 4 in `out`. -/
def engine (p : BitVec 8) (x : Block) (ks : List (Nat × Word)) : State :=
  { State.reset with progress := p, x := x, ks := ⟨ks⟩, out := ⟨0xaaaaaaaa, 0xbbbbbbbb, 0xcccccccc, 0xdddddddd⟩ }

/-- The same engine with one input on its port. -/
def driven (p : BitVec 8) (rst : Bool) (cmd : BitVec 3) : State :=
  (engine p ⟨0x11111111, 0x22222222, 0x33333333, 0x44444444⟩ []).present ⟨rst, cmd, 0⟩

/-- The next state, if there is one. -/
def nextOf : Host.Outcome State Fault Refusal → Option State
  | .next t => some t
  | .fault _ => none
  | .refused _ => none

/-- What a test looks at: `progress`, `x`, `out` and the result bits. -/
def seen (o : Host.Outcome State Fault Refusal) : Option (BitVec 8 × Block × Block × Result) :=
  (nextOf o).map fun t => (t.progress, t.x, t.out, t.result)

/-- The marker in `out`. -/
def marker : Block := ⟨0xaaaaaaaa, 0xbbbbbbbb, 0xcccccccc, 0xdddddddd⟩

/-- The arbitrary registers X of 95_test_vectors.md section 5. -/
def blockX : Block := ⟨0x11111111, 0x22222222, 0x33333333, 0x44444444⟩

/-- The source's plaintext. -/
def plain : Block := ⟨0x45670123, 0xcdef89ab, 0xba98fedc, 0x32107654⟩

/-! ### Decoding: words written out from 30_encoding.md R81, R82 and the step tables R84, R85 -/

theorem test_decode_nop :
    decode 0b000#131 = .ok .nop := by rfl

theorem test_decode_reset :
    decode 0b001#131 = .ok .reset := by rfl

theorem test_decode_advanceEncrypt :
    decode 0b100#131 = .ok .advanceEncrypt := by rfl

theorem test_decode_advanceDecrypt :
    decode 0b101#131 = .ok .advanceDecrypt := by rfl

theorem test_decode_load :
    decode (0x32107654ba98fedccdef89ab45670123#128 ++ 0b010#3) =
      .ok (.load 0x32107654ba98fedccdef89ab45670123#128) := by rfl

theorem test_decode_ignores_blk_but_for_load :
    decode (0xffffffffffffffffffffffffffffffff#128 ++ 0b001#3) = .ok .reset := by rfl

theorem test_decode_reserved :
    decode 0b011#131 = .error (.reservedCode 0b011#3) ∧ decode 0b110#131 = .error (.reservedCode 0b110#3) ∧
      decode 0b111#131 = .error (.reservedCode 0b111#3) := by exact ⟨rfl, rfl, rfl⟩

theorem test_decodeAt_eIdle :
    (decodeAt 0 0b100#131).toOption = some .eIdle := by decide

theorem test_decodeAt_eRound :
    (decodeAt 1 0b100#131).toOption = some .eRound ∧ (decodeAt 127 0b100#131).toOption = some .eRound := by decide

theorem test_decodeAt_eRoundL :
    (decodeAt 16 0b100#131).toOption = some .eRoundL ∧ (decodeAt 128 0b100#131).toOption = some .eRoundL := by decide

theorem test_decodeAt_eWhiten :
    (decodeAt 129 0b100#131).toOption = some .eWhiten ∧ (decodeAt 132 0b100#131).toOption = some .eWhiten := by decide

theorem test_decodeAt_eMaterialize :
    (decodeAt 133 0b100#131).toOption = some .eMaterialize := by decide

theorem test_decodeAt_eTerminate :
    (decodeAt 134 0b100#131).toOption = some .eTerminate := by decide

theorem test_decodeAt_dIdle :
    (decodeAt 0 0b101#131).toOption = some .dIdle := by decide

theorem test_decodeAt_dWhiten :
    (decodeAt 1 0b101#131).toOption = some .dWhiten ∧ (decodeAt 4 0b101#131).toOption = some .dWhiten := by decide

theorem test_decodeAt_dLinvRound :
    (decodeAt 5 0b101#131).toOption = some .dLinvRound ∧ (decodeAt 117 0b101#131).toOption = some .dLinvRound := by decide

theorem test_decodeAt_dRound :
    (decodeAt 6 0b101#131).toOption = some .dRound ∧ (decodeAt 132 0b101#131).toOption = some .dRound := by decide

theorem test_decodeAt_dMaterialize :
    (decodeAt 133 0b101#131).toOption = some .dMaterialize := by decide

theorem test_decodeAt_dTerminate :
    (decodeAt 134 0b101#131).toOption = some .dTerminate := by decide

theorem test_decodeAt_reservedProgress :
    (decodeAt 135 0b100#131).toOption = none ∧ (decodeAt 255 0b101#131).toOption = none := by decide

theorem test_decodeTableWord :
    [0, 1, 2, 3, 4, 5, 6, 7].map (decodeTableWord 8) =
      [some .nop, some .reset, some (.load 0), none, some .advanceEncrypt, some .advanceDecrypt, none, none] := by decide

theorem test_decodeTableWord_past_bit_130 :
    decodeTableWord 136 (2 ^ 131) = none ∧ decodeTableWord 136 (2 ^ 130 + 2) = some (.load 0x80000000000000000000000000000000#128) := by exact ⟨rfl, rfl⟩

/-! ### WellFormed: each selector refuses an ill-formed step (30_encoding.md R84, R85) -/

theorem test_wellFormed_refuses_eIdle :
    Instr.wellFormedAt 1 .eIdle = false ∧ Instr.wellFormedAt 255 .eIdle = false := by decide

theorem test_wellFormed_refuses_eRound :
    Instr.wellFormedAt 0 .eRound = false ∧ Instr.wellFormedAt 16 .eRound = false ∧ Instr.wellFormedAt 129 .eRound = false := by decide

theorem test_wellFormed_refuses_eRoundL :
    Instr.wellFormedAt 0 .eRoundL = false ∧ Instr.wellFormedAt 1 .eRoundL = false ∧ Instr.wellFormedAt 144 .eRoundL = false := by decide

theorem test_wellFormed_refuses_eWhiten :
    Instr.wellFormedAt 128 .eWhiten = false ∧ Instr.wellFormedAt 133 .eWhiten = false := by decide

theorem test_wellFormed_refuses_eMaterialize :
    Instr.wellFormedAt 132 .eMaterialize = false ∧ Instr.wellFormedAt 134 .eMaterialize = false := by decide

theorem test_wellFormed_refuses_eTerminate :
    Instr.wellFormedAt 133 .eTerminate = false ∧ Instr.wellFormedAt 135 .eTerminate = false := by decide

theorem test_wellFormed_refuses_dIdle :
    Instr.wellFormedAt 1 .dIdle = false ∧ Instr.wellFormedAt 255 .dIdle = false := by decide

theorem test_wellFormed_refuses_dWhiten :
    Instr.wellFormedAt 0 .dWhiten = false ∧ Instr.wellFormedAt 5 .dWhiten = false := by decide

theorem test_wellFormed_refuses_dRound :
    Instr.wellFormedAt 4 .dRound = false ∧ Instr.wellFormedAt 5 .dRound = false ∧ Instr.wellFormedAt 133 .dRound = false := by decide

theorem test_wellFormed_refuses_dLinvRound :
    Instr.wellFormedAt 4 .dLinvRound = false ∧ Instr.wellFormedAt 6 .dLinvRound = false ∧ Instr.wellFormedAt 133 .dLinvRound = false := by decide

theorem test_wellFormed_refuses_dMaterialize :
    Instr.wellFormedAt 132 .dMaterialize = false ∧ Instr.wellFormedAt 134 .dMaterialize = false := by decide

theorem test_wellFormed_refuses_dTerminate :
    Instr.wellFormedAt 133 .dTerminate = false ∧ Instr.wellFormedAt 135 .dTerminate = false := by decide

/-! ### Primitives (95_test_vectors.md sections 2 and 3) -/

theorem test_arx :
    arx 0x0123 0x4567 = (0x8b69, 0x9ef4) ∧ arx 0x0080 0xffff = (0x0000, 0xffff) := by decide

theorem test_arxInv :
    arxInv 0x8b69 0x9ef4 = (0x0123, 0x4567) ∧ arxInv 0x0000 0x0004 = (0xffff, 0x0001) := by decide

theorem test_linear :
    linear plain = ⟨0xffff7777, 0xffff7777, 0x45670123, 0xcdef89ab⟩ ∧
      linear ⟨1, 0, 0, 0⟩ = ⟨0x01000100, 0x01000101, 0x00000001, 0⟩ := by decide

theorem test_linearInv :
    linearInv plain = ⟨0xba98fedc, 0x32107654, 0xffff7777, 0xffff7777⟩ ∧
      linearInv ⟨0, 0, 1, 0⟩ = ⟨1, 0, 0x01000100, 0x01000101⟩ := by decide

theorem test_bytes :
    Block.ofBytes .little #v[0x23, 0x01, 0x67, 0x45, 0xab, 0x89, 0xef, 0xcd, 0xdc, 0xfe, 0x98, 0xba, 0x54, 0x76, 0x10, 0x32] =
      plain ∧ (Block.ofBytes .big #v[0x45, 0x67, 0x01, 0x23, 0, 0, 0, 0, 0, 0, 0, 0, 0, 0, 0, 0]).w0 = 0x45670123 := by decide

/-! ### Commands (95_test_vectors.md section 5; C-numbers are its rows) -/

theorem test_nop_C2 :
    seen (exec .nop (engine 77 blockX [])) = some (77, blockX, marker, ⟨false, false, 0b00#2⟩) := by decide

theorem test_reset_C5_C20 :
    seen (exec .reset (engine 134 blockX [])) = some (0, blockX, marker, ⟨false, false, 0b00#2⟩) ∧
      seen (exec .reset (engine 200 blockX [])) = some (0, blockX, marker, ⟨false, false, 0b00#2⟩) := by decide

theorem test_load_C6 :
    seen (exec (.load 0x13579bdf02468ace89abcdef01234567) (engine 0 blockX [])) =
      some (1, ⟨0x01234567, 0x89abcdef, 0x02468ace, 0x13579bdf⟩, marker, ⟨true, false, 0b00#2⟩) := by decide

theorem test_load_C7_C9_C19 :
    [1, 134, 200].map (fun p => seen (exec (.load 0) (engine p blockX []))) =
      [1, 134, 200].map (fun p => some (p, blockX, marker, ⟨false, false, 0b00#2⟩)) := by decide

theorem test_advanceEncrypt_C17 :
    seen (exec .advanceEncrypt (engine 135 blockX [])) = some (135, blockX, marker, ⟨false, false, 0b10#2⟩) := by decide

theorem test_advanceDecrypt_C13_C18 :
    seen (exec .advanceDecrypt (engine 134 blockX [])) = some (0, blockX, marker, ⟨false, true, 0b00#2⟩) ∧
      seen (exec .advanceDecrypt (engine 255 blockX [])) = some (255, blockX, marker, ⟨false, false, 0b10#2⟩) := by decide

theorem test_step_reserved_C14 :
    seen (step (driven 77 false 0b011#3)) = some (77, blockX, marker, ⟨false, false, 0b01#2⟩) := by decide

theorem test_step_rst_wins :
    (nextOf (step (driven 77 true 0b100#3))).map (fun t => (t.progress, t.result)) = some (0, ⟨false, false, 0b00#2⟩) := by rfl

theorem test_step_from_reset_runs_the_presented_word :
    (nextOf (step (State.reset.withFetchWord 136 (8 * 5 + 2)))).map (fun t => (t.progress, t.x.w0)) = some (1, 5) := by decide

/-! ### Steps (95_test_vectors.md section 4, KS_MUL, and the worked examples under KS_PUB) -/

theorem test_eRound_at_1 :
    seen (exec .eRound (engine 1 ⟨0x45670123, 0xcdef89ab, 0xba98fedc, 0x32107654⟩ [(0, 0x9e3779b9)])) =
        some (2, ⟨0x7d021041, 0xcdef89ab, 0xba98fedc, 0x32107654⟩, marker, ⟨false, false, 0b00#2⟩) ∧
      seen (exec .advanceEncrypt (engine 1 ⟨0x45670123, 0xcdef89ab, 0xba98fedc, 0x32107654⟩ [(0, 0x9e3779b9)])) =
        some (2, ⟨0x7d021041, 0xcdef89ab, 0xba98fedc, 0x32107654⟩, marker, ⟨false, false, 0b00#2⟩) := by decide

theorem test_eRound_at_5 :
    seen (exec .eRound (engine 5 ⟨0xbb179c83, 0xcdef89ab, 0xba98fedc, 0x32107654⟩ [(4, 0x1715609d)])) =
        some (6, ⟨0xbb179c83, 0x232748cc, 0xba98fedc, 0x32107654⟩, marker, ⟨false, false, 0b00#2⟩) ∧
      seen (exec .advanceEncrypt (engine 5 ⟨0xbb179c83, 0xcdef89ab, 0xba98fedc, 0x32107654⟩ [(4, 0x1715609d)])) =
        some (6, ⟨0xbb179c83, 0x232748cc, 0xba98fedc, 0x32107654⟩, marker, ⟨false, false, 0b00#2⟩) := by decide

theorem test_eRoundL_at_16 :
    seen (exec .eRoundL (engine 16 ⟨0x28be6dda, 0x6493d98b, 0x6dfea6fa, 0x1d37b6db⟩ [(15, 0xff0f44f8)])) =
        some (17, ⟨0x39b80389, 0xba943b3e, 0x28be6dda, 0x6493d98b⟩, marker, ⟨false, false, 0b00#2⟩) ∧
      seen (exec .advanceEncrypt (engine 16 ⟨0x28be6dda, 0x6493d98b, 0x6dfea6fa, 0x1d37b6db⟩ [(15, 0xff0f44f8)])) =
        some (17, ⟨0x39b80389, 0xba943b3e, 0x28be6dda, 0x6493d98b⟩, marker, ⟨false, false, 0b00#2⟩) := by decide

theorem test_eRoundL_at_128 :
    seen (exec .eRoundL (engine 128 ⟨0xd0d57ff4, 0x9467c790, 0x660c2b0f, 0x348f43a8⟩ [(127, 0x1bbcdc80)])) =
        some (129, ⟨0x60253a63, 0x7e262979, 0xd0d57ff4, 0x9467c790⟩, marker, ⟨false, false, 0b00#2⟩) ∧
      seen (exec .advanceEncrypt (engine 128 ⟨0xd0d57ff4, 0x9467c790, 0x660c2b0f, 0x348f43a8⟩ [(127, 0x1bbcdc80)])) =
        some (129, ⟨0x60253a63, 0x7e262979, 0xd0d57ff4, 0x9467c790⟩, marker, ⟨false, false, 0b00#2⟩) := by decide

theorem test_eWhiten_at_132 :
    seen (exec .eWhiten (engine 132 ⟨0xd9d16c5a, 0x260de68b, 0x26b6365f, 0x9467c790⟩ [(131, 0x949ac364)])) =
        some (133, ⟨0xd9d16c5a, 0x260de68b, 0x26b6365f, 0x00fd04f4⟩, marker, ⟨false, false, 0b00#2⟩) ∧
      seen (exec .advanceEncrypt (engine 132 ⟨0xd9d16c5a, 0x260de68b, 0x26b6365f, 0x9467c790⟩ [(131, 0x949ac364)])) =
        some (133, ⟨0xd9d16c5a, 0x260de68b, 0x26b6365f, 0x00fd04f4⟩, marker, ⟨false, false, 0b00#2⟩) := by decide

theorem test_dWhiten_at_4 :
    seen (exec .dWhiten (engine 4 ⟨0x60253a63, 0x7e262979, 0xd0d57ff4, 0x00fd04f4⟩ [(131, 0x949ac364)])) =
        some (5, ⟨0x60253a63, 0x7e262979, 0xd0d57ff4, 0x9467c790⟩, marker, ⟨false, false, 0b00#2⟩) ∧
      seen (exec .advanceDecrypt (engine 4 ⟨0x60253a63, 0x7e262979, 0xd0d57ff4, 0x00fd04f4⟩ [(131, 0x949ac364)])) =
        some (5, ⟨0x60253a63, 0x7e262979, 0xd0d57ff4, 0x9467c790⟩, marker, ⟨false, false, 0b00#2⟩) := by decide

theorem test_dLinvRound_at_5 :
    seen (exec .dLinvRound (engine 5 ⟨0x60253a63, 0x7e262979, 0xd0d57ff4, 0x9467c790⟩ [(127, 0x1bbcdc80)])) =
        some (6, ⟨0xd0d57ff4, 0x9467c790, 0x660c2b0f, 0x348f43a8⟩, marker, ⟨false, false, 0b00#2⟩) ∧
      seen (exec .advanceDecrypt (engine 5 ⟨0x60253a63, 0x7e262979, 0xd0d57ff4, 0x9467c790⟩ [(127, 0x1bbcdc80)])) =
        some (6, ⟨0xd0d57ff4, 0x9467c790, 0x660c2b0f, 0x348f43a8⟩, marker, ⟨false, false, 0b00#2⟩) := by decide

theorem test_dLinvRound_at_117 :
    seen (exec .dLinvRound (engine 117 ⟨0x39b80389, 0xba943b3e, 0x28be6dda, 0x6493d98b⟩ [(15, 0xff0f44f8)])) =
        some (118, ⟨0x28be6dda, 0x6493d98b, 0x6dfea6fa, 0x1d37b6db⟩, marker, ⟨false, false, 0b00#2⟩) ∧
      seen (exec .advanceDecrypt (engine 117 ⟨0x39b80389, 0xba943b3e, 0x28be6dda, 0x6493d98b⟩ [(15, 0xff0f44f8)])) =
        some (118, ⟨0x28be6dda, 0x6493d98b, 0x6dfea6fa, 0x1d37b6db⟩, marker, ⟨false, false, 0b00#2⟩) := by decide

theorem test_dRound_at_20 :
    seen (exec .dRound (engine 20 ⟨0xe70db7ab, 0xd3ba3f10, 0xe55eaf52, 0x5abded3a⟩ [(112, 0xd67cbaa9)])) =
        some (21, ⟨0x42557bb8, 0xd3ba3f10, 0xe55eaf52, 0x5abded3a⟩, marker, ⟨false, false, 0b00#2⟩) ∧
      seen (exec .advanceDecrypt (engine 20 ⟨0xe70db7ab, 0xd3ba3f10, 0xe55eaf52, 0x5abded3a⟩ [(112, 0xd67cbaa9)])) =
        some (21, ⟨0x42557bb8, 0xd3ba3f10, 0xe55eaf52, 0x5abded3a⟩, marker, ⟨false, false, 0b00#2⟩) := by decide

theorem test_dRound_at_132 :
    seen (exec .dRound (engine 132 ⟨0x5607cb56, 0xcdef89ab, 0xba98fedc, 0x32107654⟩ [(0, 0x22330011)])) =
        some (133, ⟨0x45670123, 0xcdef89ab, 0xba98fedc, 0x32107654⟩, marker, ⟨false, false, 0b00#2⟩) ∧
      seen (exec .advanceDecrypt (engine 132 ⟨0x5607cb56, 0xcdef89ab, 0xba98fedc, 0x32107654⟩ [(0, 0x22330011)])) =
        some (133, ⟨0x45670123, 0xcdef89ab, 0xba98fedc, 0x32107654⟩, marker, ⟨false, false, 0b00#2⟩) := by decide

theorem test_eMaterialize :
    seen (exec .eMaterialize (engine 133 plain [])) = some (134, plain, plain, ⟨false, false, 0b00#2⟩) := by decide

theorem test_eTerminate :
    seen (exec .eTerminate (engine 134 plain [])) = some (0, plain, marker, ⟨false, true, 0b00#2⟩) := by decide

theorem test_eIdle :
    seen (exec .eIdle (engine 0 plain [])) = some (0, plain, marker, ⟨false, false, 0b00#2⟩) := by decide

theorem test_dMaterialize :
    seen (exec .dMaterialize (engine 133 plain [])) = some (134, plain, plain, ⟨false, false, 0b00#2⟩) := by decide

theorem test_dTerminate :
    seen (exec .dTerminate (engine 134 plain [])) = some (0, plain, marker, ⟨false, true, 0b00#2⟩) := by decide

theorem test_dIdle :
    seen (exec .dIdle (engine 0 plain [])) = some (0, plain, marker, ⟨false, false, 0b00#2⟩) := by decide

/-! ### Trace lines (30_encoding.md R91, R92) and the ports -/

theorem test_parse_adve_count :
    parseLine ['A', 'D', 'V', 'E', ' ', '1', '3', '4', ' ', ';', ' ', 'x'] = some (.adveTimes 134) := by decide

theorem test_parse_load :
    parseLine
      ['L', 'O', 'A', 'D', ' ', '4', '5', '6', '7', '0', '1', '2', '3', ','] = none ∧
      parseLine ['N', 'O', 'P'] = some .nop := by decide

theorem test_ksAddr :
    ksAddr .advanceEncrypt 132 = some 131 ∧ ksAddr .advanceDecrypt 5 = some 127 ∧ ksAddr .advanceEncrypt 133 = none := by decide

theorem test_memory :
    (Memory.ofWords [0, 7, 0, 9]).cells = [(1, 7), (3, 9)] ∧ ((Memory.ofWords [5]).write 0 0).cells = [] := by decide

/-! ### Witnesses: the hypotheses of the statements are met -/

theorem witness_AfterResetTheEngineIsIdle :
    ∃ (x out : Block) (ks : Memory) (s : State), s = { State.reset with x := x, out := out, ks := ks } := by exact ⟨plain, marker, ⟨[(0, 1)]⟩, _, rfl⟩

theorem witness_ResetSatisfiesInvariant :
    ∃ ks : Memory, ks.wf = true ∧ ks.cells ≠ [] := by exact ⟨⟨[(0, 1), (131, 2)]⟩, by decide⟩

theorem witness_EveryStepKeepsInvariant :
    ∃ s t : State, Inv s ∧ step s = .next t := by exact ⟨driven 134 false 0b100#3, _, ⟨by unfold ProgressLegal; decide, by decide, by decide⟩, rfl⟩

theorem witness_ReachableProgressIsLegal :
    ∃ s : State, Reachable s := by exact ⟨_, .reset plain marker ⟨[]⟩ []⟩

theorem witness_EveryClockEdgeCompletes :
    ∃ i : Instr, i.isCommand = true := by exact ⟨.nop, rfl⟩

theorem witness_StepRunsTheDecodedCommand :
    ∃ (s : State) (p : PortInput) (rest : List PortInput) (i : Instr),
      s.inputs = p :: rest ∧ p.rst = false ∧ decode (p.blk ++ p.cmd) = .ok i := by exact ⟨driven 1 false 0b100#3, _, _, .advanceEncrypt, rfl, rfl, rfl⟩

theorem witness_QuietPortIsNop :
    ∃ s : State, s.inputs = [] := by exact ⟨engine 57 plain [], rfl⟩

theorem witness_HardwareResetWinsOverAnyCommand :
    ∃ (s : State) (p : PortInput) (rest : List PortInput), s.inputs = p :: rest ∧ p.rst = true := by exact ⟨driven 77 true 0b100#3, _, _, rfl, rfl⟩

theorem witness_ReservedCodeRaisesIllegalCommand :
    ∀ c ∈ [0b011#3, 0b110#3, 0b111#3], ∃ (s : State) (p : PortInput) (rest : List PortInput),
      s.inputs = p :: rest ∧ p.rst = false ∧ p.cmd = c ∧ (p.cmd = 0b011#3 ∨ p.cmd = 0b110#3 ∨ p.cmd = 0b111#3) := by 
  intro c hc
  refine ⟨driven 77 false c, _, _, rfl, rfl, rfl, ?_⟩
  simpa using hc

theorem witness_FaultCodesNameTheirCause :
    (∃ t, step (driven 77 false 0b011#3) = .next t ∧ t.result.faultCode = 0b01#2) ∧
      (∃ t, step (driven 135 false 0b100#3) = .next t ∧ t.result.faultCode = 0b10#2) ∧
      (∃ t, step (driven 134 false 0b100#3) = .next t ∧ t.result.faultCode = 0b00#2) ∧
      (∃ t, step (driven 1 false 0b010#3) = .next t ∧ (driven 1 false 0b010#3).progress.toNat ≠ 0) := by exact ⟨⟨_, rfl, rfl⟩, ⟨_, rfl, rfl⟩, ⟨_, rfl, rfl⟩, ⟨_, rfl, by decide⟩⟩

theorem witness_LoadIsAcceptedExactlyWhenIdle :
    (engine 0 plain []).progress.toNat = 0 ∧ (engine 1 plain []).progress.toNat ≠ 0 ∧
      (engine 255 plain []).progress.toNat ≠ 0 := by decide

theorem witness_AdvanceEncryptPerformsTheSelectedStep :
    (engine 0 plain []).progress.toNat = 0 ∧
      (∀ n ∈ [1, 15, 17, 127], 1 ≤ (engine n plain []).progress.toNat ∧ (engine n plain []).progress.toNat ≤ 128 ∧
        ((engine n plain []).progress.toNat - 1) % 16 ≠ 15) ∧
      (∀ n ∈ [16, 128], 1 ≤ (engine n plain []).progress.toNat ∧ (engine n plain []).progress.toNat ≤ 128 ∧
        ((engine n plain []).progress.toNat - 1) % 16 = 15) ∧
      (∀ n ∈ [129, 132], 129 ≤ (engine n plain []).progress.toNat ∧ (engine n plain []).progress.toNat ≤ 132) ∧
      (engine 133 plain []).progress.toNat = 133 ∧ (engine 134 plain []).progress.toNat = 134 ∧ 135 ≤ (engine 135 plain []).progress.toNat ∧
      135 ≤ (engine 255 plain []).progress.toNat := by decide

theorem witness_AdvanceDecryptPerformsTheSelectedStep :
    (engine 0 plain []).progress.toNat = 0 ∧ (∀ n ∈ [1, 4], 1 ≤ (engine n plain []).progress.toNat ∧ (engine n plain []).progress.toNat ≤ 4) ∧
      (∀ n ∈ [6, 20, 132], 5 ≤ (engine n plain []).progress.toNat ∧ (engine n plain []).progress.toNat ≤ 132 ∧
        (132 - (engine n plain []).progress.toNat) % 16 ≠ 15) ∧
      (∀ n ∈ [5, 117], 5 ≤ (engine n plain []).progress.toNat ∧ (engine n plain []).progress.toNat ≤ 132 ∧
        (132 - (engine n plain []).progress.toNat) % 16 = 15) ∧
      (engine 133 plain []).progress.toNat = 133 ∧ (engine 134 plain []).progress.toNat = 134 ∧ 135 ≤ (engine 135 plain []).progress.toNat ∧
      135 ≤ (engine 255 plain []).progress.toNat := by decide

theorem witness_ERoundTransformsItsBranch :
    ∃ (s : State) (k : Fin 128) (b : Fin 4) (idx : Fin 132) (v : Word) (left right l r : Half),
      s.progress.toNat = k.val + 1 ∧ k.val % 16 ≠ 15 ∧ b.val = k.val / 4 % 4 ∧ idx.val = k.val ∧
      v = s.x.get b ^^^ s.ks.read idx ∧ left = v.extractLsb' 0 16 ∧ right = v.extractLsb' 16 16 ∧
      l = left.rotateLeft 9 + right ∧ r = right.rotateLeft 2 ^^^ l := by exact ⟨engine 127 plain [], 126, 3, 126, _, _, _, _, _, by decide, by decide, by decide, by decide, rfl, rfl, rfl, rfl, rfl⟩

theorem witness_ERoundLMixesAfterTheRound :
    ∃ (s : State) (k : Fin 128) (idx : Fin 132) (v x3 : Word) (left right l r t : Half),
      s.progress.toNat = k.val + 1 ∧ k.val % 16 = 15 ∧ idx.val = k.val ∧
      v = s.x.w3 ^^^ s.ks.read idx ∧ left = v.extractLsb' 0 16 ∧ right = v.extractLsb' 16 16 ∧
      l = left.rotateLeft 9 + right ∧ r = right.rotateLeft 2 ^^^ l ∧ x3 = r ++ l ∧
      t = (lo16 s.x.w0 ^^^ hi16 s.x.w0 ^^^ lo16 s.x.w1 ^^^ hi16 s.x.w1).rotateLeft 8 := by exact ⟨engine 128 plain [], 127, 127, _, _, _, _, _, _, _, by decide, by decide, by decide, rfl, rfl, rfl, rfl, rfl, rfl, rfl⟩

theorem witness_EWhitenXorsOneWord :
    ∃ (s : State) (i : Fin 4) (idx : Fin 132), s.progress.toNat = 129 + i.val ∧ idx.val = 128 + i.val := by exact ⟨engine 132 plain [], 3, 131, by decide, by decide⟩

theorem witness_DWhitenXorsOneWord :
    ∃ (s : State) (i : Fin 4) (idx : Fin 132), s.progress.toNat = i.val + 1 ∧ idx.val = 128 + i.val := by exact ⟨engine 4 plain [], 3, 131, by decide, by decide⟩

theorem witness_EMaterializeCopiesTheBlock : (engine 133 plain []).progress.toNat = 133 := by decide

theorem witness_DMaterializeCopiesTheBlock : (engine 133 plain []).progress.toNat = 133 := by decide

theorem witness_ETerminateCompletes : (engine 134 plain []).progress.toNat = 134 := by decide

theorem witness_DTerminateCompletes : (engine 134 plain []).progress.toNat = 134 := by decide

theorem witness_EIdleWritesNothing : (engine 0 plain []).progress.toNat = 0 := by decide

theorem witness_DIdleWritesNothing : (engine 0 plain []).progress.toNat = 0 := by decide

theorem witness_DRoundUndoesItsBranch :
    ∃ (s : State) (k : Fin 128) (b : Fin 4) (idx : Fin 132) (left right l r : Half),
      s.progress.toNat + k.val = 132 ∧ k.val % 16 ≠ 15 ∧ b.val = k.val / 4 % 4 ∧ idx.val = k.val ∧
      left = (s.x.get b).extractLsb' 0 16 ∧ right = (s.x.get b).extractLsb' 16 16 ∧
      r = (right ^^^ left).rotateLeft 14 ∧ l = (left - r).rotateLeft 7 := by exact ⟨engine 132 plain [], 0, 0, 0, _, _, _, _, by decide, by decide, by decide, by decide, rfl, rfl, rfl, rfl⟩

theorem witness_DLinvRoundUnmixesBeforeTheRound :
    ∃ (s : State) (k : Fin 128) (idx : Fin 132) (t : Half) (y2 y3 : Word) (left right l r : Half),
      s.progress.toNat + k.val = 132 ∧ k.val % 16 = 15 ∧ idx.val = k.val ∧
      t = (lo16 s.x.w2 ^^^ hi16 s.x.w2 ^^^ lo16 s.x.w3 ^^^ hi16 s.x.w3).rotateLeft 8 ∧
      y2 = s.x.w0 ^^^ (hi16 s.x.w2 ++ lo16 s.x.w3) ^^^ (t ++ t) ∧
      y3 = s.x.w1 ^^^ (hi16 s.x.w3 ++ lo16 s.x.w2) ^^^ (t ++ t) ∧
      left = y3.extractLsb' 0 16 ∧ right = y3.extractLsb' 16 16 ∧
      r = (right ^^^ left).rotateLeft 14 ∧ l = (left - r).rotateLeft 7 := by exact ⟨engine 5 plain [], 127, 127, _, _, _, _, _, _, _, by decide, by decide, by decide, rfl, rfl, rfl, rfl, rfl, rfl, rfl⟩

theorem witness_UnselectedStepRowIsRefused :
    Instr.wellFormedAt (engine 0 plain []).progress .eRound = false ∧
      Instr.wellFormedAt (engine 1 plain []).progress .eRound = true := by decide

theorem witness_DecodeAndEncodeAgree :
    (Instr.load 5).isCommand = true ∧ decode 0b010#131 = .ok (.load 0) ∧ cmdField 0b010#131 = 0b010#3 := by exact ⟨rfl, rfl, rfl⟩

theorem witness_StepRowsDecodeWhereSelected :
    Instr.isCommand .eRound = false := by decide

theorem witness_ByteViewRoundTrips :
    ∃ (i n : Fin 4) (j : Fin 16), j.val = 4 * i.val + n.val := by exact ⟨3, 3, 15, by decide⟩

theorem witness_HalfWordsAliasTheWords :
    ∃ (n m : Fin 8) (j : Fin 4) (lo hi : Fin 8), m ≠ n ∧ j.val ≠ n.val / 2 ∧ lo.val = 2 * j.val ∧ hi.val = 2 * j.val + 1 := by exact ⟨0, 7, 3, 6, 7, by decide⟩

theorem witness_AdvanceReadsOnlyItsKeyWord :
    ∃ (s t : State) (m : Memory), m ≠ s.ks ∧
      (∀ idx, keyIndexAt .encrypt s.progress = some idx → m.read idx = s.ks.read idx) ∧
      exec (advanceOf .encrypt) s = .next t := by exact ⟨engine 1 plain [(0, 7)], _, ⟨[(0, 7), (1, 9)]⟩, by decide, by decide, rfl⟩

theorem witness_NothingWritesTheKeySchedule :
    (∃ s t : State, step s = .next t) ∧ ∃ (i : Instr) (s t : State), exec i s = .next t := by exact ⟨⟨engine 1 plain [(0, 7)], _, rfl⟩, .advanceEncrypt, engine 1 plain [(0, 7)], _, rfl⟩

theorem witness_ScheduleChangesOnlyWhileIdle :
    (engine 0 plain []).progress.toNat = 0 ∧ (engine 1 plain []).progress.toNat ≠ 0 := by decide

theorem witness_ProgressTransitionLaw :
    ∃ (s t : State) (p : PortInput) (rest : List PortInput), s.inputs = p :: rest ∧ step s = .next t := by exact ⟨driven 133 false 0b101#3, _, _, _, rfl, rfl⟩

theorem witness_OnlyMaterializeWritesOut :
    ∃ (i : Instr) (s t : State), exec i s = .next t ∧ t.out ≠ s.out := by exact ⟨.dMaterialize, engine 133 plain [], _, rfl, by decide⟩

theorem witness_ResultBitsFollowCommandAndProgress :
    ∃ (i : Instr) (s t : State), i.isCommand = true ∧ exec i s = .next t ∧ t.result.done = true := by exact ⟨.advanceDecrypt, engine 134 plain [], _, rfl, rfl, rfl⟩

theorem witness_NoInstructionReadsTheModelsOwnFields :
    ∃ (i : Instr) (s t : State), exec i s = .next t := by exact ⟨.eRoundL, engine 16 plain [], _, rfl⟩

theorem witness_BlockTakes134Advances :
    (engine 0 plain []).progress.toNat = 0 ∧ (List.replicate 133 Direction.encrypt).length ≤ 133 ∧
      (List.replicate 134 Direction.decrypt).length = 134 := by exact ⟨by decide, by simp, by simp⟩

theorem witness_RejectedLoadIsInvisible :
    (engine 134 plain []).progress.toNat ≠ 0 ∧ Instr.isCommand .advanceEncrypt = true := by decide

theorem witness_DirectionIsNotState :
    ∃ (d : Direction) (s u t v : State), s ≠ u ∧ s.progress = u.progress ∧ s.x = u.x ∧ s.ks = u.ks ∧
      exec (advanceOf d) s = .next t ∧ exec (advanceOf d) u = .next v ∧ s.progress.toNat = 133 := by exact ⟨.decrypt, engine 133 plain [], { engine 133 plain [] with out := plain }, _, _, by decide, rfl, rfl, rfl, rfl, rfl, by decide⟩

theorem witness_DirectionIsNotState_otherwise :
    ∃ (d : Direction) (s u t v : State), s ≠ u ∧ s.progress = u.progress ∧ s.x = u.x ∧ s.ks = u.ks ∧
      exec (advanceOf d) s = .next t ∧ exec (advanceOf d) u = .next v ∧ s.progress.toNat ≠ 133 := by exact ⟨.decrypt, engine 132 plain [], { engine 132 plain [] with out := plain }, _, _, by decide, rfl, rfl, rfl, rfl, rfl, by decide⟩

theorem witness_AbandonmentLeaksNothing :
    ∃ (s u s1 : State) (before : List Instr) (ds : List Direction),
      u.ks = s.ks ∧ runCommands before s = .next s1 ∧ ds.length = 134 ∧ s1.progress.toNat = 2 := by exact ⟨engine 0 blockX [], engine 77 plain [], _, [.load 1, .advanceEncrypt], List.replicate 134 .encrypt, rfl, rfl, by simp, by decide⟩

theorem witness_MirrorLaw_rounds :
    ∃ (s t u : State) (p : BitVec 8), 5 ≤ p.toNat ∧ p.toNat ≤ 132 ∧ s.progress.toNat = 133 - p.toNat ∧
      exec .advanceEncrypt s = .next t ∧ exec .advanceDecrypt { t with progress := p } = .next u := by exact ⟨engine 128 plain [], _, _, 5, by decide, by decide, by decide, rfl, rfl⟩

theorem witness_MirrorLaw_whitening :
    ∃ (s t u : State) (p : BitVec 8), 1 ≤ p.toNat ∧ p.toNat ≤ 4 ∧ s.progress.toNat = 128 + p.toNat ∧
      exec .advanceEncrypt s = .next t ∧ exec .advanceDecrypt { t with progress := p } = .next u := by exact ⟨engine 132 plain [], _, _, 4, by decide, by decide, by decide, rfl, rfl⟩

theorem witness_MirrorLaw_rounds_converse :
    ∃ (s t u : State) (q : BitVec 8), 5 ≤ s.progress.toNat ∧ s.progress.toNat ≤ 132 ∧
      q.toNat = 133 - s.progress.toNat ∧ exec .advanceDecrypt s = .next t ∧
      exec .advanceEncrypt { t with progress := q } = .next u := by exact ⟨engine 132 plain [], _, _, 1, by decide, by decide, by decide, rfl, rfl⟩

theorem witness_MirrorLaw_whitening_converse :
    ∃ (s t u : State) (q : BitVec 8), 1 ≤ s.progress.toNat ∧ s.progress.toNat ≤ 4 ∧
      q.toNat = 128 + s.progress.toNat ∧ exec .advanceDecrypt s = .next t ∧
      exec .advanceEncrypt { t with progress := q } = .next u := by exact ⟨engine 1 plain [], _, _, 129, by decide, by decide, by decide, rfl, rfl⟩

theorem witness_EncryptionRunComputesEnc : (engine 0 plain []).progress.toNat = 0 := by decide

theorem witness_DecryptionRunComputesDec : (engine 0 plain []).progress.toNat = 0 := by decide

theorem witness_TraceLinesExpandAsTheTableSays : (engine 0 plain []).progress.toNat = 0 := by decide

theorem witness_RoundTripReturnsTheBlock :
    (engine 0 plain []).progress.toNat = 0 ∧ Direction.encrypt ≠ .decrypt := by decide

theorem witness_NopsAreInvisible : Instr.isCommand .advanceEncrypt = true := by decide

theorem witness_DoneMeansIdleAndReadyForLoad :
    ∃ (s t : State) (p : PortInput) (rest : List PortInput), s.inputs = p :: rest ∧ step s = .next t ∧ t.ports.done = true := by exact ⟨driven 134 false 0b101#3, _, _, _, rfl, rfl, rfl⟩

theorem witness_GoodRunsAreExactlyTheFaultFreeOnes :
    ∃ (before : List PortInput) (p : PortInput) (s t : State), runEdges before s = .next t ∧ GoodEdges before s ∧
      t.progress.toNat = 1 ∧ p.rst = false ∧ p.cmd = 0b110#3 := by
  exact ⟨[⟨false, 0b010#3, 5⟩], ⟨false, 0b110#3, 0⟩, engine 0 plain [], _, rfl, ⟨_, rfl, rfl, trivial⟩, by decide, rfl, rfl⟩

theorem witness_GoodRunsAreExactlyTheFaultFreeOnes_progress :
    ∃ (before : List PortInput) (p : PortInput) (s t : State), runEdges before s = .next t ∧ GoodEdges before s ∧
      135 ≤ t.progress.toNat ∧ p.rst = false ∧ p.cmd = 0b101#3 := by
  exact ⟨[⟨false, 0b010#3, 5⟩], ⟨false, 0b101#3, 0⟩, engine 135 plain [], _, rfl, ⟨_, rfl, rfl, trivial⟩, by decide, rfl, rfl⟩

theorem witness_GoodRunsAreExactlyTheFaultFreeOnes_commands :
    ∀ i ∈ [Instr.load 5, .advanceEncrypt], i.isCommand = true := by decide

theorem witness_ExactlyReservedCodesAreRejected :
    cmdField 0b111#131 = 0b111#3 ∧ cmdField (5#128 ++ 0b010#3) = 0b010#3 ∧ cmdField (5#128 ++ 0b101#3) = 0b101#3 := by decide

/-- R223: the engine goes on after a reserved code, but the run is no good run. -/
theorem test_reserved_code_ends_the_good_run :
    ¬GoodEdges [⟨false, 0b011#3, 0⟩, ⟨false, 0b010#3, 5⟩] (engine 0 plain []) := by
  rintro ⟨t, h, hf, -⟩
  cases h
  exact absurd hf (by decide)

/-- R221: a rejected LOAD leaves the run good. -/
theorem test_rejected_load_is_good : GoodEdges [⟨false, 0b010#3, 5⟩] (engine 1 plain []) := ⟨_, rfl, rfl, trivial⟩

end Sys2Proof.Tests
end

section
/-! PROOFS. The family 10_state.md: what an instruction can do to the engine, said once, and the statements about the
registers, the result bits and the invariant that follow from it. -/

namespace Sys2Proof.Machine

/-! ### What an instruction can do -/

/-- What the step that an ADVANCE_ENCRYPT selects does to the engine (42_round_engine_encrypt.md R151 to R156);
`exec_next_iff_effect` ties it to `exec`. -/
def encEffect : EncStep → State → State
  | .idle => idle
  | .round k => encRound k
  | .roundL k => encRoundL k
  | .whiten i => whiten i
  | .materialize => materialize
  | .terminate => terminate

/-- What the step that an ADVANCE_DECRYPT selects does to the engine (43_round_engine_decrypt.md R171 to R176);
`exec_next_iff_effect` ties it to `exec`. -/
def decEffect : DecStep → State → State
  | .idle => idle
  | .whiten i => whiten i
  | .round k => decRound k
  | .linvRound k => decLinvRound k
  | .materialize => materialize
  | .terminate => terminate

/-- Instruction `i` takes the engine from the first state to the second: the write matrix of 10_state.md R29, the
selectors and guards included. -/
inductive Effect : Instr → State → State → Prop
  | nop (s : State) : Effect .nop s (s.respond Result.pending)
  | reset (s : State) : Effect .reset s ((s.setProgress 0).respond Result.pending)
  | loadAccepted (blk : BitVec 128) {s : State} (idle : s.progress = 0) :
      Effect (.load blk) s (((s.setX (Block.ofBits blk)).setProgress 1).respond Result.loaded)
  | loadRejected (blk : BitVec 128) {s : State} (busy : s.progress ≠ 0) :
      Effect (.load blk) s (raise .loadRejected s)
  | encStep {i : Instr} {s : State} {st : EncStep} (selected : encStepAt s.progress = some st)
      (row : i = .advanceEncrypt ∨ i = st.instr) : Effect i s (encEffect st s)
  | decStep {i : Instr} {s : State} {st : DecStep} (selected : decStepAt s.progress = some st)
      (row : i = .advanceDecrypt ∨ i = st.instr) : Effect i s (decEffect st s)
  | reservedProgress {i : Instr} {s : State} (advance : i = .advanceEncrypt ∨ i = .advanceDecrypt)
      (reserved : 135 ≤ s.progress.toNat) : Effect i s (raise .illegalProgress s)

theorem exec_advanceEncrypt_of_selected {s : State} {st : EncStep} (h : encStepAt s.progress = some st) :
    exec .advanceEncrypt s = .next (encEffect st s) := by
  rw [exec, execAdvanceEncrypt, h]
  cases st <;> rfl

theorem exec_advanceDecrypt_of_selected {s : State} {st : DecStep} (h : decStepAt s.progress = some st) :
    exec .advanceDecrypt s = .next (decEffect st s) := by
  rw [exec, execAdvanceDecrypt, h]
  cases st <;> rfl

theorem exec_advanceEncrypt_of_reserved {s : State} (h : 135 ≤ s.progress.toNat) :
    exec .advanceEncrypt s = .next (raise .illegalProgress s) := by
  rw [exec, execAdvanceEncrypt, encStepAt_reserved h]

theorem exec_advanceDecrypt_of_reserved {s : State} (h : 135 ≤ s.progress.toNat) :
    exec .advanceDecrypt s = .next (raise .illegalProgress s) := by
  rw [exec, execAdvanceDecrypt, decStepAt_reserved h]

/-- A row of the encryption direction does what its ADVANCE does there. -/
theorem exec_encRow_of_selected {s : State} {st : EncStep} (h : encStepAt s.progress = some st) :
    exec st.instr s = .next (encEffect st s) := by
  cases st <;>
    simp only [EncStep.instr, exec, execEIdle, execERound, execERoundL, execEWhiten, execEMaterialize,
      execETerminate, h, encEffect]

/-- A row of the decryption direction does what its ADVANCE does there. -/
theorem exec_decRow_of_selected {s : State} {st : DecStep} (h : decStepAt s.progress = some st) :
    exec st.instr s = .next (decEffect st s) := by
  cases st <;>
    simp only [DecStep.instr, exec, execDIdle, execDRound, execDLinvRound, execDWhiten, execDMaterialize,
      execDTerminate, h, decEffect]

/-- A row of the encryption direction answers a next state only where its selector holds (log entry 8). -/
theorem effect_of_exec_encRow {s t : State} (st : EncStep) (h : exec st.instr s = .next t) :
    Effect st.instr s t := by
  cases st <;>
    · simp only [EncStep.instr, exec, execEIdle, execERound, execERoundL, execEWhiten, execEMaterialize,
        execETerminate] at h
      split at h
      · next hst => cases h; exact (Effect.encStep hst (.inr rfl) :)
      · cases h

/-- A row of the decryption direction answers a next state only where its selector holds (log entry 8). -/
theorem effect_of_exec_decRow {s t : State} (st : DecStep) (h : exec st.instr s = .next t) :
    Effect st.instr s t := by
  cases st <;>
    · simp only [DecStep.instr, exec, execDIdle, execDRound, execDLinvRound, execDWhiten, execDMaterialize,
        execDTerminate] at h
      split at h
      · next hst => cases h; exact (Effect.decStep hst (.inr rfl) :)
      · cases h

theorem effect_of_exec_load {s t : State} {blk : BitVec 128} (h : exec (.load blk) s = .next t) :
    Effect (.load blk) s t := by
  rw [exec] at h
  obtain ⟨hp, e⟩ | ⟨hp, e⟩ := execLoad_cases blk s <;> cases e.symm.trans h
  · exact .loadAccepted blk hp
  · exact .loadRejected blk hp

theorem effect_of_exec_advanceEncrypt {s t : State} (h : exec .advanceEncrypt s = .next t) :
    Effect .advanceEncrypt s t := by
  cases hst : encStepAt s.progress with
  | some st => cases (exec_advanceEncrypt_of_selected hst).symm.trans h; exact .encStep hst (.inl rfl)
  | none =>
    have hp : 135 ≤ s.progress.toNat := by simpa [hst] using encStepAt_spec s.progress
    cases (exec_advanceEncrypt_of_reserved hp).symm.trans h
    exact .reservedProgress (.inl rfl) hp

theorem effect_of_exec_advanceDecrypt {s t : State} (h : exec .advanceDecrypt s = .next t) :
    Effect .advanceDecrypt s t := by
  cases hst : decStepAt s.progress with
  | some st => cases (exec_advanceDecrypt_of_selected hst).symm.trans h; exact .decStep hst (.inl rfl)
  | none =>
    have hp : 135 ≤ s.progress.toNat := by simpa [hst] using decStepAt_spec s.progress
    cases (exec_advanceDecrypt_of_reserved hp).symm.trans h
    exact .reservedProgress (.inr rfl) hp

theorem effect_of_exec {i : Instr} {s t : State} (h : exec i s = .next t) : Effect i s t := by
  cases i with
  | nop => cases h; exact .nop s
  | reset => cases h; exact .reset s
  | load blk => exact effect_of_exec_load h
  | advanceEncrypt => exact effect_of_exec_advanceEncrypt h
  | advanceDecrypt => exact effect_of_exec_advanceDecrypt h
  | eIdle => exact effect_of_exec_encRow .idle h
  | eRound => exact effect_of_exec_encRow (.round 0) h
  | eRoundL => exact effect_of_exec_encRow (.roundL 0) h
  | eWhiten => exact effect_of_exec_encRow (.whiten 0) h
  | eMaterialize => exact effect_of_exec_encRow .materialize h
  | eTerminate => exact effect_of_exec_encRow .terminate h
  | dIdle => exact effect_of_exec_decRow .idle h
  | dWhiten => exact effect_of_exec_decRow (.whiten 0) h
  | dRound => exact effect_of_exec_decRow (.round 0) h
  | dLinvRound => exact effect_of_exec_decRow (.linvRound 0) h
  | dMaterialize => exact effect_of_exec_decRow .materialize h
  | dTerminate => exact effect_of_exec_decRow .terminate h

theorem exec_of_effect {i : Instr} {s t : State} (h : Effect i s t) : exec i s = .next t := by
  cases h with
  | nop => rfl
  | reset => rfl
  | loadAccepted blk hp => exact if_pos hp
  | loadRejected blk hp => exact if_neg hp
  | encStep hst hrow =>
    obtain rfl | rfl := hrow
    · exact exec_advanceEncrypt_of_selected hst
    · exact exec_encRow_of_selected hst
  | decStep hst hrow =>
    obtain rfl | rfl := hrow
    · exact exec_advanceDecrypt_of_selected hst
    · exact exec_decRow_of_selected hst
  | reservedProgress hadv hp =>
    obtain rfl | rfl := hadv
    · exact exec_advanceEncrypt_of_reserved hp
    · exact exec_advanceDecrypt_of_reserved hp

/-- Once for all: `Effect` is exactly what `exec` does. -/
theorem exec_next_iff_effect {i : Instr} {s t : State} : exec i s = .next t ↔ Effect i s t :=
  ⟨effect_of_exec, exec_of_effect⟩

/-- What a step of either direction can do, by the value of `progress` that selects it. -/
inductive StepEffect (s : State) : State → Prop
  | idle (p0 : s.progress.toNat = 0) : StepEffect s (idle s)
  | work (b : Block) (pos : 1 ≤ s.progress.toNat) (le : s.progress.toNat ≤ 132) : StepEffect s (workStep b s)
  | materialize (p133 : s.progress.toNat = 133) : StepEffect s (materialize s)
  | terminate (p134 : s.progress.toNat = 134) : StepEffect s (terminate s)

theorem stepEffect_of_encStepAt {s : State} {st : EncStep} (h : encStepAt s.progress = some st) :
    StepEffect s (encEffect st s) := by
  obtain ⟨hp, e⟩ | ⟨k, hp, -, e⟩ | ⟨k, hp, -, e⟩ | ⟨i, hp, e⟩ | ⟨hp, e⟩ | ⟨hp, e⟩ | ⟨hp, e⟩ :=
    encStepAt_spec s.progress <;> cases e.symm.trans h
  · exact .idle hp
  · exact .work _ (by omega) (by omega)
  · exact .work _ (by omega) (by omega)
  · exact .work _ (by omega) (by omega)
  · exact .materialize hp
  · exact .terminate hp

theorem stepEffect_of_decStepAt {s : State} {st : DecStep} (h : decStepAt s.progress = some st) :
    StepEffect s (decEffect st s) := by
  obtain ⟨hp, e⟩ | ⟨i, hp, e⟩ | ⟨k, hp, hm, e⟩ | ⟨k, hp, hm, e⟩ | ⟨hp, e⟩ | ⟨hp, e⟩ | ⟨hp, e⟩ :=
    decStepAt_spec s.progress <;> cases e.symm.trans h
  · exact .idle hp
  · exact .work _ (by omega) (by omega)
  · exact .work _ (by omega) (by omega)
  · exact .work _ (by omega) (by omega)
  · exact .materialize hp
  · exact .terminate hp

/-! ### What a step leaves in each field -/

theorem StepEffect.ks_eq {s t : State} (h : StepEffect s t) : t.ks = s.ks := by cases h <;> rfl

theorem StepEffect.progress_le {s t : State} (h : StepEffect s t) : t.progress.toNat ≤ 134 := by
  cases h with
  | idle hp => rw [idle_progress]; omega
  | work b pos le => rw [workStep_progress]; bv_omega
  | materialize => rw [materialize_progress]; decide
  | terminate => rw [terminate_progress]; decide

/-- A step is selected at 0..134 only, and `done` shows the terminal one (10_state.md R27). -/
theorem StepEffect.result_eq {s t : State} (h : StepEffect s t) :
    s.progress.toNat ≤ 134 ∧
      t.result = if s.progress.toNat = 134 then Result.completed else Result.pending := by
  cases h with
  | idle hp => simp [hp]
  | work b pos le => exact ⟨by omega, (if_neg (by omega)).symm⟩
  | materialize hp => simp [hp]
  | terminate hp => simp [hp]

/-- Only the copy at 133 writes `out` (10_state.md R25). -/
theorem StepEffect.out_eq_or {s t : State} (h : StepEffect s t) :
    t.out = s.out ∨ s.progress.toNat = 133 ∧ t.progress.toNat = 134 ∧ t.out = s.x ∧ t.x = s.x := by
  cases h with
  | idle => exact .inl rfl
  | work => exact .inl rfl
  | materialize hp => exact .inr ⟨hp, rfl, rfl, rfl⟩
  | terminate => exact .inl rfl

/-! ### What every instruction and every clock edge keeps -/

theorem exec_ks {i : Instr} {s t : State} (h : exec i s = .next t) : t.ks = s.ks := by
  cases effect_of_exec h with
  | nop => rfl
  | reset => rfl
  | loadAccepted => rfl
  | loadRejected => rfl
  | encStep hst => exact (stepEffect_of_encStepAt hst).ks_eq
  | decStep hst => exact (stepEffect_of_decStepAt hst).ks_eq
  | reservedProgress => rfl

theorem exec_keeps_progressLegal {i : Instr} {s t : State} (hs : ProgressLegal s) (h : exec i s = .next t) :
    ProgressLegal t := by
  cases effect_of_exec h with
  | nop => exact hs
  | reset => exact Nat.zero_le _
  | loadAccepted => show 1 ≤ 134; decide
  | loadRejected => exact hs
  | encStep hst => exact (stepEffect_of_encStepAt hst).progress_le
  | decStep hst => exact (stepEffect_of_decStepAt hst).progress_le
  | reservedProgress => exact hs

/-- Code 01 belongs to the clock edge, so an instruction drives 00 or 10 (60_exceptions.md R226). -/
theorem exec_faultCode_ne {i : Instr} {s t : State} (h : exec i s = .next t) : t.result.faultCode ≠ 0b11#2 := by
  have of_step {u : State} (hu : StepEffect s u) : u.result.faultCode ≠ 0b11#2 := by
    rw [hu.result_eq.2]
    split <;> decide
  cases effect_of_exec h with
  | nop => show 0b00#2 ≠ 0b11#2; decide
  | reset => show 0b00#2 ≠ 0b11#2; decide
  | loadAccepted => show 0b00#2 ≠ 0b11#2; decide
  | loadRejected => show 0b00#2 ≠ 0b11#2; decide
  | encStep hst => exact of_step (stepEffect_of_encStepAt hst)
  | decStep hst => exact of_step (stepEffect_of_decStepAt hst)
  | reservedProgress => show 0b10#2 ≠ 0b11#2; decide

/-- A clock edge resets the engine, executes a command or raises IllegalCommand, on the state whose port has moved on: a
property of the next state that all three establish holds after every clock edge. -/
theorem of_step_next {P : State → Prop} {s t : State} (h : step s = .next t)
    (hreset : P (hardwareReset s.popInput)) (hexec : ∀ i u, exec i s.popInput = .next u → P u)
    (hraise : P (raise .illegalCommand s.popInput)) : P t := by
  obtain ⟨-, e⟩ | ⟨i, -, -, e⟩ | ⟨-, -, -, e⟩ := step_cases s
  · cases e.symm.trans h; exact hreset
  · exact hexec i t (e.symm.trans h)
  · cases e.symm.trans h; exact hraise

theorem step_ks {s t : State} (h : step s = .next t) : t.ks = s.ks :=
  of_step_next (P := fun u => u.ks = s.ks) h rfl (fun _ _ hu => exec_ks (s := s.popInput) hu) rfl

theorem step_keeps_progressLegal {s t : State} (hs : ProgressLegal s) (h : step s = .next t) : ProgressLegal t :=
  of_step_next h (Nat.zero_le _) (fun _ _ hu => exec_keeps_progressLegal (s := s.popInput) hs hu) hs

theorem step_faultCode_ne {s t : State} (h : step s = .next t) : t.result.faultCode ≠ 0b11#2 :=
  of_step_next (P := fun u => u.result.faultCode ≠ 0b11#2) h
    (by show 0b00#2 ≠ 0b11#2; decide) (fun _ _ hu => exec_faultCode_ne hu) (by show 0b01#2 ≠ 0b11#2; decide)

theorem provideKeySchedule_progress {m : Memory} {s t : State} (h : provideKeySchedule m s = .next t) :
    t.progress = s.progress := by
  cases hb : s.busy with
  | false => cases (provideKeySchedule_idle m s hb).symm.trans h; rfl
  | true => cases (provideKeySchedule_busy m s hb).symm.trans h

/-! ### The invariant, reset, and the schedule -/

/-- Settles O3: one lemma for each clause of the invariant, each from what an instruction can do. -/
theorem everyStepKeepsInvariant : Obligations.EveryStepKeepsInvariant := by
  intro s t hs h
  exact {
    progressLegal := step_keeps_progressLegal hs.progressLegal h
    scheduleCanonical := by rw [step_ks h]; exact hs.scheduleCanonical
    faultCodeDriven := step_faultCode_ne h }

/-- Settles O4, by induction on how the state is reached; no schedule is assumed canonical, so the legal counter alone is
what the induction carries. -/
theorem reachableProgressIsLegal : Obligations.ReachableProgressIsLegal := by
  intro s hs
  show ProgressLegal s
  induction hs with
  | reset x out ks inputs => exact Nat.zero_le _
  | step _ h ih => exact step_keeps_progressLegal ih h
  | rekey m _ h ih =>
    rw [ProgressLegal, provideKeySchedule_progress h]
    exact ih

/-- Settles O42. -/
theorem nothingWritesTheKeySchedule : Obligations.NothingWritesTheKeySchedule :=
  ⟨fun _ _ h => step_ks h, fun _ _ _ h => exec_ks h⟩

/-- Settles O2. -/
theorem resetSatisfiesInvariant : Obligations.ResetSatisfiesInvariant := by
  intro x out ks hks
  exact {
    progressLegal := Nat.zero_le _
    scheduleCanonical := hks
    faultCodeDriven := by show 0b00#2 ≠ 0b11#2; decide }

/-- Settles O1: at `progress` 0 LOAD is accepted, and both ADVANCE commands select the idle step, which writes no more than
the result bits that reset left. -/
theorem afterResetTheEngineIsIdle : Obligations.AfterResetTheEngineIsIdle := by
  rintro x out ks s rfl
  refine ⟨rfl, rfl, rfl, rfl, fun blk => ⟨_, exec_of_effect (.loadAccepted blk rfl), rfl⟩, ?_, ?_⟩
  · exact exec_advanceEncrypt_of_selected (encStepAt_idle rfl)
  · exact exec_advanceDecrypt_of_selected (decStepAt_idle rfl)

/-! ### The output buffer and the result bits -/

/-- Settles O45: of the instructions only a step can write `out`, only the copy at 133 does, and the row selected there is
the materialize row of its direction. -/
theorem onlyMaterializeWritesOut : Obligations.OnlyMaterializeWritesOut := by
  intro i s t h hout
  cases effect_of_exec h with
  | nop => exact absurd rfl hout
  | reset => exact absurd rfl hout
  | loadAccepted => exact absurd rfl hout
  | loadRejected => exact absurd rfl hout
  | encStep hst hrow =>
    have copy := (stepEffect_of_encStepAt hst).out_eq_or.resolve_left hout
    cases hst.symm.trans (encStepAt_materialize copy.1)
    exact ⟨hrow.elim .inl fun hi => .inr (.inr (.inl hi)), copy⟩
  | decStep hst hrow =>
    have copy := (stepEffect_of_decStepAt hst).out_eq_or.resolve_left hout
    cases hst.symm.trans (decStepAt_materialize copy.1)
    exact ⟨hrow.elim (fun hi => .inr (.inl hi)) fun hi => .inr (.inr (.inr hi)), copy⟩
  | reservedProgress => exact absurd rfl hout

/-- The port `busy` in terms of `progress` (10_state.md R27). -/
@[simp] theorem State.ports_busy_iff (s : State) : s.ports.busy = true ↔ s.progress.toNat ≠ 0 := by
  simp [State.ports, State.busy, BitVec.toNat_eq]

/-- The result bits of an ADVANCE of either direction at `progress` p (10_state.md R27); `exec_advance_result` ties it to
`exec`. -/
def advanceResult (p : Nat) : Result :=
  if p = 134 then Result.completed else if 135 ≤ p then resultOf .illegalProgress else Result.pending

@[simp] theorem advanceResult_accepted (p : Nat) : (advanceResult p).accepted = false := by
  rw [advanceResult]
  split_ifs <;> rfl

@[simp] theorem advanceResult_done (p : Nat) : (advanceResult p).done = true ↔ p = 134 := by
  rw [advanceResult]
  split_ifs with hp <;> simp [hp, Result.completed, resultOf, Result.pending]

@[simp] theorem advanceResult_faultCode (p : Nat) :
    (advanceResult p).faultCode = if 135 ≤ p then 0b10#2 else 0b00#2 := by
  rw [advanceResult]
  split_ifs with hp hq
  · omega
  all_goals rfl

theorem StepEffect.result_eq_advanceResult {s t : State} (h : StepEffect s t) :
    t.result = advanceResult s.progress.toNat := by
  obtain ⟨hp, hr⟩ := h.result_eq
  rw [hr, advanceResult, if_neg (show ¬ 135 ≤ s.progress.toNat by omega)]

theorem exec_advance_result {i : Instr} {s t : State} (hi : i = .advanceEncrypt ∨ i = .advanceDecrypt)
    (h : exec i s = .next t) : t.result = advanceResult s.progress.toNat := by
  cases effect_of_exec h with
  | nop => simp at hi
  | reset => simp at hi
  | loadAccepted => simp at hi
  | loadRejected => simp at hi
  | encStep hst => exact (stepEffect_of_encStepAt hst).result_eq_advanceResult
  | decStep hst => exact (stepEffect_of_decStepAt hst).result_eq_advanceResult
  | reservedProgress _ hp => rw [advanceResult, if_neg (by omega), if_pos hp, raise_result]

theorem exec_load_result {blk : BitVec 128} {s t : State} (h : exec (.load blk) s = .next t) :
    t.result = if s.progress.toNat = 0 then Result.loaded else resultOf .loadRejected := by
  obtain ⟨hp, e⟩ | ⟨hp, e⟩ := execLoad_cases blk s <;> cases e.symm.trans h
  · rw [hp]; rfl
  · rw [raise_result, if_neg (show s.progress.toNat ≠ 0 from fun h0 => hp (BitVec.eq_of_toNat_eq h0))]

/-- Settles O46, command by command. -/
theorem resultBitsFollowCommandAndProgress : Obligations.ResultBitsFollowCommandAndProgress := by
  intro i s t hi h
  cases i with
  | nop =>
    have hr : t.result = Result.pending := by cases h; rfl
    simp [hr, Result.pending]
  | reset =>
    have hr : t.result = Result.pending := by cases h; rfl
    simp [hr, Result.pending]
  | load blk =>
    rw [exec_load_result h]
    by_cases hp : s.progress.toNat = 0 <;> simp [hp, Result.loaded, resultOf, faultCodeOf]
  | advanceEncrypt => rw [exec_advance_result (.inl rfl) h]; simp
  | advanceDecrypt => rw [exec_advance_result (.inr rfl) h]; simp
  | _ => cases hi

/-! ### The fields the model keeps for itself -/

/-- `s` with other values in the three fields of the model's own (log entries 1, 2, 4). -/
def State.withOwnFields (s : State) (r : Result) (inputs : List PortInput) (n : Nat) : State :=
  { s with result := r, inputs := inputs, resetDraws := n }

/-- Every step writes `result` and neither reads nor writes the other two. -/
theorem encEffect_withOwnFields (st : EncStep) (s : State) (r : Result) (inputs : List PortInput) (n : Nat) :
    encEffect st (s.withOwnFields r inputs n) = { encEffect st s with inputs := inputs, resetDraws := n } := by
  cases st <;> rfl

theorem decEffect_withOwnFields (st : DecStep) (s : State) (r : Result) (inputs : List PortInput) (n : Nat) :
    decEffect st (s.withOwnFields r inputs n) = { decEffect st s with inputs := inputs, resetDraws := n } := by
  cases st <;> rfl

/-- Every guard and every selector looks at `progress` alone, so the same case of `Effect` holds. -/
theorem Effect.withOwnFields {i : Instr} {s t : State} (h : Effect i s t) (r : Result) (inputs : List PortInput)
    (n : Nat) : Effect i (s.withOwnFields r inputs n) { t with inputs := inputs, resetDraws := n } := by
  cases h with
  | nop => exact .nop _
  | reset => exact .reset _
  | loadAccepted blk hp => exact .loadAccepted blk hp
  | loadRejected blk hp => exact .loadRejected blk hp
  | encStep hst hrow => rw [← encEffect_withOwnFields]; exact .encStep hst hrow
  | decStep hst hrow => rw [← decEffect_withOwnFields]; exact .decStep hst hrow
  | reservedProgress hadv hp => exact .reservedProgress hadv hp

/-- Settles O47. -/
theorem noInstructionReadsTheModelsOwnFields : Obligations.NoInstructionReadsTheModelsOwnFields :=
  fun _ _ _ r inputs n h => exec_of_effect ((effect_of_exec h).withOwnFields r inputs n)

/-! ### Half-words -/

theorem Block.half_even (b : Block) {n : Fin 8} (h : n.val % 2 = 0) : b.half n = lo16 (b.get (wordOfHalf n)) :=
  if_pos h

theorem Block.half_odd (b : Block) {n : Fin 8} (h : n.val % 2 = 1) : b.half n = hi16 (b.get (wordOfHalf n)) :=
  if_neg (by omega)

theorem Block.get_setHalf_same (b : Block) (n : Fin 8) (v : Half) : (b.setHalf n v).get (wordOfHalf n) =
    if n.val % 2 = 0 then cat (hi16 (b.get (wordOfHalf n))) v else cat v (lo16 (b.get (wordOfHalf n))) :=
  Block.get_set_same _ _ _

theorem Block.get_setHalf_other (b : Block) {n : Fin 8} {j : Fin 4} (v : Half) (h : j ≠ wordOfHalf n) :
    (b.setHalf n v).get j = b.get j := Block.get_set_other _ _ _ _ h

theorem Block.half_setHalf_same (b : Block) (n : Fin 8) (v : Half) : (b.setHalf n v).half n = v := by
  obtain h | h := Nat.mod_two_eq_zero_or_one n.val
  · simp [Block.half_even, h, Block.get_setHalf_same]
  · simp [Block.half_odd, h, Block.get_setHalf_same]

/-- Another half-word stands in another word, or in the other half of the same word. -/
theorem Block.half_setHalf_other (b : Block) {n m : Fin 8} (v : Half) (h : m ≠ n) :
    (b.setHalf n v).half m = b.half m := by
  by_cases hw : wordOfHalf m = wordOfHalf n
  · have hdiv : m.val / 2 = n.val / 2 := congrArg Fin.val hw
    have hne : m.val ≠ n.val := fun e => h (Fin.ext e)
    obtain hm | hm := Nat.mod_two_eq_zero_or_one m.val
    · have hn : n.val % 2 = 1 := by omega
      simp [Block.half_even, hm, hw, Block.get_setHalf_same, hn]
    · have hn : n.val % 2 = 0 := by omega
      simp [Block.half_odd, hm, hw, Block.get_setHalf_same, hn]
  · simp only [Block.half, Block.get_setHalf_other b v hw]

/-- A word is its odd half-word before its even one (10_state.md R22). -/
theorem Block.get_eq_cat_half (b : Block) {j : Fin 4} {lo hi : Fin 8} (hlo : lo.val = 2 * j.val)
    (hhi : hi.val = 2 * j.val + 1) : b.get j = cat (b.half hi) (b.half lo) := by
  have wlo : wordOfHalf lo = j := Fin.ext (by show lo.val / 2 = j.val; omega)
  have whi : wordOfHalf hi = j := Fin.ext (by show hi.val / 2 = j.val; omega)
  rw [b.half_odd (show hi.val % 2 = 1 by omega), b.half_even (show lo.val % 2 = 0 by omega), wlo, whi, cat_hi16_lo16]

/-- Settles O39. -/
theorem halfWordsAliasTheWords : Obligations.HalfWordsAliasTheWords := by
  intro b n m v
  refine ⟨b.half_setHalf_same n v, b.half_setHalf_other v, fun j hj => ?_, fun j lo hi hlo hhi => ?_⟩
  · exact b.get_setHalf_other v fun e => hj (congrArg Fin.val e)
  · exact b.get_eq_cat_half hlo hhi

/-! ### Bytes -/

/-- Bit i of four bytes on end. -/
theorem getLsbD_append_bytes (a b c d : Byte) (i : Nat) : (a ++ b ++ c ++ d : Word).getLsbD i =
    if i < 8 then d.getLsbD i else if i < 16 then c.getLsbD (i - 8)
      else if i < 24 then b.getLsbD (i - 16) else a.getLsbD (i - 24) := by
  have hd : (a ++ b ++ c ++ d : Word).getLsbD i =
      if i < 8 then d.getLsbD i else (a ++ b ++ c : BitVec 24).getLsbD (i - 8) := BitVec.getLsbD_append
  have hc (j : Nat) : (a ++ b ++ c : BitVec 24).getLsbD j =
      if j < 8 then c.getLsbD j else (a ++ b : BitVec 16).getLsbD (j - 8) := BitVec.getLsbD_append
  have hb (j : Nat) : (a ++ b : BitVec 16).getLsbD j = if j < 8 then b.getLsbD j else a.getLsbD (j - 8) :=
    BitVec.getLsbD_append
  rw [hd, hc, hb]
  grind

theorem wordOfBytes_byteOfWord (o : ByteOrder) (w : Word) :
    wordOfBytes o (byteOfWord o w 0) (byteOfWord o w 1) (byteOfWord o w 2) (byteOfWord o w 3) = w := by
  refine BitVec.eq_of_getLsbD_eq fun i hi => ?_
  cases o <;> simp only [wordOfBytes, byteOfWord, getLsbD_append_bytes, BitVec.getLsbD_extractLsb'] <;> grind

theorem byteOfWord_wordOfBytes (o : ByteOrder) (f : Fin 4 → Byte) (n : Fin 4) :
    byteOfWord o (wordOfBytes o (f 0) (f 1) (f 2) (f 3)) n = f n := by
  refine BitVec.eq_of_getLsbD_eq fun i hi => ?_
  cases o <;> simp only [wordOfBytes, byteOfWord, getLsbD_append_bytes, BitVec.getLsbD_extractLsb'] <;>
    fin_cases n <;> grind

/-- Byte 4i+n of a block is byte n of its word i (10_state.md R33). -/
theorem Block.toBytes_getElem (o : ByteOrder) (b : Block) (i n : Fin 4) :
    (b.toBytes o)[4 * i.val + n.val] = byteOfWord o (b.get i) n := by
  fin_cases i <;> fin_cases n <;> rfl

/-- Word i of a block is made of bytes 4i to 4i+3 (10_state.md R33). -/
theorem Block.ofBytes_get (o : ByteOrder) (B : Vector Byte 16) (i : Fin 4) :
    (Block.ofBytes o B).get i =
      wordOfBytes o B[4 * i.val] B[4 * i.val + 1] B[4 * i.val + 2] B[4 * i.val + 3] := by
  fin_cases i <;> rfl

theorem Block.ofBytes_toBytes (o : ByteOrder) (b : Block) : Block.ofBytes o (b.toBytes o) = b :=
  Block.ext (wordOfBytes_byteOfWord o _) (wordOfBytes_byteOfWord o _) (wordOfBytes_byteOfWord o _)
    (wordOfBytes_byteOfWord o _)

theorem Block.toBytes_ofBytes (o : ByteOrder) (B : Vector Byte 16) : (Block.ofBytes o B).toBytes o = B := by
  ext1 k hk
  let i : Fin 4 := ⟨k / 4, by omega⟩
  let n : Fin 4 := ⟨k % 4, Nat.mod_lt _ (by decide)⟩
  have hkin : 4 * i.val + n.val = k := Nat.div_add_mod k 4
  calc ((Block.ofBytes o B).toBytes o)[k] = byteOfWord o ((Block.ofBytes o B).get i) n := by
        rw [← Block.toBytes_getElem]; simp only [hkin]
    _ = B[4 * i.val + n.val] := by
        rw [Block.ofBytes_get]
        exact byteOfWord_wordOfBytes o (fun n => B[4 * i.val + n.val]) n
    _ = B[k] := by simp only [hkin]

/-- Settles O37. -/
theorem byteViewRoundTrips : Obligations.ByteViewRoundTrips := by
  refine ⟨Block.ofBytes_toBytes, Block.toBytes_ofBytes, fun b i n j hj => ?_⟩
  obtain ⟨_, hlt⟩ := j
  obtain rfl := hj
  exact ⟨Block.toBytes_getElem .little b i n, Block.toBytes_getElem .big b i n⟩

end Sys2Proof.Machine
end

section
/-! PROOFS. The family 20_memory.md: at which `progress` each key word is read, and what follows for the ADVANCE commands,
the key ports and the platform's change of the schedule. -/

namespace Sys2Proof.Machine

/-! ### The key index -/

/-- The `progress` at which an ADVANCE of direction `d` reads key word `idx` (20_memory.md R53, its table read from index to
`progress`); `keyIndexAt_eq_some_iff` ties it to `keyIndexAt`. -/
def keyProgress (d : Direction) (idx : Fin Config.ksLen) : Nat :=
  match d with
  | .encrypt => idx.val + 1
  | .decrypt => if idx.val < 128 then 132 - idx.val else idx.val - 127

theorem keyProgress_le (d : Direction) (idx : Fin Config.ksLen) : keyProgress d idx ≤ 132 := by
  have hidx : idx.val < 132 := idx.isLt
  cases d with
  | encrypt => exact hidx
  | decrypt => rw [keyProgress]; split <;> omega

theorem eq_keyProgress_encrypt_iff (n : Nat) (idx : Fin Config.ksLen) :
    n = keyProgress .encrypt idx ↔ n = idx.val + 1 := Iff.rfl

theorem eq_keyProgress_decrypt_iff (n : Nat) (idx : Fin Config.ksLen) :
    n = keyProgress .decrypt idx ↔ (128 ≤ idx.val ∧ idx.val = n + 127) ∨ (idx.val < 128 ∧ n + idx.val = 132) := by
  rw [keyProgress]
  split <;> omega

@[simp] theorem roundKeyIndex_val (k : Fin Config.mainOps) : (roundKeyIndex k).val = k.val := rfl
@[simp] theorem whitenKeyIndex_val (i : Fin Config.words) : (whitenKeyIndex i).val = 128 + i.val := rfl

/-- An ADVANCE reads a key word at one `progress` alone: round operation k reads word k, whitening operation i word 128 + i
(20_memory.md R51), and no other step reads any. -/
theorem keyIndexAt_eq_some_iff (d : Direction) (p : BitVec 8) (idx : Fin Config.ksLen) :
    keyIndexAt d p = some idx ↔ p.toNat = keyProgress d idx := by
  have hidx : idx.val < 132 := idx.isLt
  cases d with
  | encrypt =>
    rw [eq_keyProgress_encrypt_iff]
    obtain ⟨hp, e⟩ | ⟨k, hp, -, e⟩ | ⟨k, hp, -, e⟩ | ⟨i, hp, e⟩ | ⟨hp, e⟩ | ⟨hp, e⟩ | ⟨hp, e⟩ := encStepAt_spec p
    all_goals
      simp only [keyIndexAt, e, Option.bind_some, Option.bind_none, encKeyIndex, Option.some.injEq, reduceCtorEq,
        false_iff, Fin.ext_iff, roundKeyIndex_val, whitenKeyIndex_val]
      omega
  | decrypt =>
    rw [eq_keyProgress_decrypt_iff]
    obtain ⟨hp, e⟩ | ⟨i, hp, e⟩ | ⟨k, hp, -, e⟩ | ⟨k, hp, -, e⟩ | ⟨hp, e⟩ | ⟨hp, e⟩ | ⟨hp, e⟩ := decStepAt_spec p
    all_goals
      simp only [keyIndexAt, e, Option.bind_some, Option.bind_none, decKeyIndex, Option.some.injEq, reduceCtorEq,
        false_iff, Fin.ext_iff, roundKeyIndex_val, whitenKeyIndex_val]
      omega

/-- The encryption row of the table of 20_memory.md R53. -/
theorem keyIndexAt_encrypt_iff (p : BitVec 8) (idx : Fin Config.ksLen) : keyIndexAt .encrypt p = some idx ↔
    1 ≤ p.toNat ∧ p.toNat ≤ 132 ∧ idx.val = p.toNat - 1 := by
  have hidx : idx.val < 132 := idx.isLt
  rw [keyIndexAt_eq_some_iff, eq_keyProgress_encrypt_iff]
  omega

/-- The decryption rows of the table of 20_memory.md R53. -/
theorem keyIndexAt_decrypt_iff (p : BitVec 8) (idx : Fin Config.ksLen) : keyIndexAt .decrypt p = some idx ↔
    (1 ≤ p.toNat ∧ p.toNat ≤ 4 ∧ idx.val = p.toNat + 127) ∨
    (5 ≤ p.toNat ∧ p.toNat ≤ 132 ∧ idx.val = 132 - p.toNat) := by
  have hidx : idx.val < 132 := idx.isLt
  rw [keyIndexAt_eq_some_iff, eq_keyProgress_decrypt_iff]
  omega

/-- Settles O40: the table read from `progress` to index, and each index's one `progress`, `keyProgress`. -/
theorem keyIndexFollowsTheTable : Obligations.KeyIndexFollowsTheTable := by
  refine ⟨keyIndexAt_encrypt_iff, keyIndexAt_decrypt_iff, fun d idx => ?_⟩
  have hle := keyProgress_le d idx
  have hp : (BitVec.ofNat 8 (keyProgress d idx)).toNat = keyProgress d idx := Nat.mod_eq_of_lt (by omega)
  refine ⟨BitVec.ofNat 8 (keyProgress d idx), by omega, (keyIndexAt_eq_some_iff _ _ _).mpr hp, fun q hq => ?_⟩
  exact BitVec.eq_of_toNat_eq (((keyIndexAt_eq_some_iff _ _ _).mp hq).trans hp.symm)

/-! ### What an instruction reads of the schedule -/

/-- The key word that instruction `i` reads on an engine at `progress`: its ADVANCE's, and none for a command without a
direction. `ksAddr_eq_map_keyIndexOf` ties it to the key port. -/
def keyIndexOf (i : Instr) (progress : BitVec 8) : Option (Fin Config.ksLen) :=
  i.direction?.bind fun d => keyIndexAt d progress

@[simp] theorem keyIndexOf_advanceOf (d : Direction) (p : BitVec 8) : keyIndexOf (advanceOf d) p = keyIndexAt d p := by
  cases d <;> rfl

theorem direction?_of_encStep {i : Instr} {st : EncStep} (h : i = .advanceEncrypt ∨ i = st.instr) :
    i.direction? = some .encrypt := by
  obtain rfl | rfl := h
  · rfl
  · cases st <;> rfl

theorem direction?_of_decStep {i : Instr} {st : DecStep} (h : i = .advanceDecrypt ∨ i = st.instr) :
    i.direction? = some .decrypt := by
  obtain rfl | rfl := h
  · rfl
  · cases st <;> rfl

theorem keyIndexOf_of_encStep {i : Instr} {p : BitVec 8} {st : EncStep} (h : encStepAt p = some st)
    (hrow : i = .advanceEncrypt ∨ i = st.instr) : keyIndexOf i p = encKeyIndex st := by
  rw [keyIndexOf, direction?_of_encStep hrow, Option.bind_some, keyIndexAt, h, Option.bind_some]

theorem keyIndexOf_of_decStep {i : Instr} {p : BitVec 8} {st : DecStep} (h : decStepAt p = some st)
    (hrow : i = .advanceDecrypt ∨ i = st.instr) : keyIndexOf i p = decKeyIndex st := by
  rw [keyIndexOf, direction?_of_decStep hrow, Option.bind_some, keyIndexAt, h, Option.bind_some]

/-- `s` with another key schedule. -/
def State.withKs (s : State) (m : Memory) : State := { s with ks := m }

/-- A working step whose new block depends on the schedule through the word at `idx` alone. -/
theorem workStep_withKs {s : State} {m : Memory} {idx : Fin Config.ksLen} (newX : Word → Block)
    (h : m.read idx = s.ks.read idx) :
    workStep (newX (m.read idx)) (s.withKs m) = (workStep (newX (s.ks.read idx)) s).withKs m := by
  rw [h]
  rfl

theorem encEffect_withKs {st : EncStep} {s : State} {m : Memory}
    (h : ∀ idx, encKeyIndex st = some idx → m.read idx = s.ks.read idx) :
    encEffect st (s.withKs m) = (encEffect st s).withKs m := by
  cases st with
  | idle => rfl
  | round k => exact workStep_withKs (fun key => roundBlock (branch k) key s.x) (h _ rfl)
  | roundL k => exact workStep_withKs (fun key => linear (roundBlock (branch k) key s.x)) (h _ rfl)
  | whiten i => exact workStep_withKs (fun key => whitenBlock i key s.x) (h _ rfl)
  | materialize => rfl
  | terminate => rfl

theorem decEffect_withKs {st : DecStep} {s : State} {m : Memory}
    (h : ∀ idx, decKeyIndex st = some idx → m.read idx = s.ks.read idx) :
    decEffect st (s.withKs m) = (decEffect st s).withKs m := by
  cases st with
  | idle => rfl
  | whiten i => exact workStep_withKs (fun key => whitenBlock i key s.x) (h _ rfl)
  | round k => exact workStep_withKs (fun key => unroundBlock (branch k) key s.x) (h _ rfl)
  | linvRound k => exact workStep_withKs (fun key => unroundBlock (branch k) key (linearInv s.x)) (h _ rfl)
  | materialize => rfl
  | terminate => rfl

/-- No guard and no selector looks at the schedule, so the same case of `Effect` holds under every schedule that agrees on
the one key word the instruction reads (20_memory.md R58). -/
theorem Effect.withKs {i : Instr} {s t : State} {m : Memory} (h : Effect i s t)
    (hread : ∀ idx, keyIndexOf i s.progress = some idx → m.read idx = s.ks.read idx) :
    Effect i (s.withKs m) (t.withKs m) := by
  cases h with
  | nop => exact .nop _
  | reset => exact .reset _
  | loadAccepted blk hp => exact .loadAccepted blk hp
  | loadRejected blk hp => exact .loadRejected blk hp
  | encStep hst hrow =>
    rw [keyIndexOf_of_encStep hst hrow] at hread
    rw [← encEffect_withKs hread]
    exact .encStep hst hrow
  | decStep hst hrow =>
    rw [keyIndexOf_of_decStep hst hrow] at hread
    rw [← decEffect_withKs hread]
    exact .decStep hst hrow
  | reservedProgress hadv hp => exact .reservedProgress hadv hp

/-- Settles O41: the case of an ADVANCE of what holds for every instruction. -/
theorem advanceReadsOnlyItsKeyWord : Obligations.AdvanceReadsOnlyItsKeyWord := by
  intro d s t m hread h
  exact exec_of_effect ((effect_of_exec h).withKs (by rwa [keyIndexOf_advanceOf]))

/-! ### The platform's change of the schedule -/

/-- Settles O43. -/
theorem scheduleChangesOnlyWhileIdle : Obligations.ScheduleChangesOnlyWhileIdle := by
  intro m s
  have hbusy : s.busy = true ↔ s.progress.toNat ≠ 0 := s.ports_busy_iff
  constructor
  · intro hp
    exact provideKeySchedule_idle m s (Bool.eq_false_iff.mpr fun hb => hbusy.mp hb hp)
  · intro hp
    exact provideKeySchedule_busy m s (hbusy.mpr hp)

/-! ### The key ports -/

/-- A key index as `ks_addr` shows it, on eight bits (20_memory.md R54). -/
def keyAddr (idx : Fin Config.ksLen) : BitVec 8 := BitVec.ofNat 8 idx.val

@[simp] theorem keyAddr_toNat (idx : Fin Config.ksLen) : (keyAddr idx).toNat = idx.val := by
  have hidx : idx.val < 132 := idx.isLt
  exact Nat.mod_eq_of_lt (by omega)

/-- No two of the 132 indices show the same address. -/
theorem keyAddr_injective : Function.Injective keyAddr := fun i j h =>
  Fin.ext (by rw [← keyAddr_toNat i, h, keyAddr_toNat])

theorem ksAddr_eq_map_keyIndexOf (i : Instr) (p : BitVec 8) : ksAddr i p = (keyIndexOf i p).map keyAddr := rfl

theorem ksData_eq_map_keyIndexOf (s : State) (i : Instr) : ksData s i = (keyIndexOf i s.progress).map s.ks.read := rfl

theorem ksAddr_advanceOf_eq_keyAddr_iff (d : Direction) (p : BitVec 8) (idx : Fin Config.ksLen) :
    ksAddr (advanceOf d) p = some (keyAddr idx) ↔ keyIndexAt d p = some idx := by
  rw [ksAddr_eq_map_keyIndexOf, keyIndexOf_advanceOf]
  exact (Option.map_injective keyAddr_injective).eq_iff (b := some idx)

theorem ksAddr_advanceOf_eq_some_iff (d : Direction) (p a : BitVec 8) : ksAddr (advanceOf d) p = some a ↔
    ∃ h : a.toNat < 132, keyIndexAt d p = some ⟨a.toNat, h⟩ := by
  rw [ksAddr_eq_map_keyIndexOf, keyIndexOf_advanceOf, Option.map_eq_some_iff]
  constructor
  · rintro ⟨idx, hidx, rfl⟩
    simpa using hidx
  · rintro ⟨h, hidx⟩
    exact ⟨_, hidx, BitVec.eq_of_toNat_eq (keyAddr_toNat _)⟩

theorem ksData_advanceOf_eq_some_iff (d : Direction) (s : State) (w : Word) : ksData s (advanceOf d) = some w ↔
    ∃ idx, ksAddr (advanceOf d) s.progress = some (keyAddr idx) ∧ w = s.ks.read idx := by
  simp only [ksAddr_advanceOf_eq_keyAddr_iff, ksData_eq_map_keyIndexOf, keyIndexOf_advanceOf, Option.map_eq_some_iff,
    eq_comm (a := w)]

theorem keyPorts_of_no_direction {i : Instr} (s : State) (h : i.direction? = none) :
    ksAddr i s.progress = none ∧ ksData s i = none := by
  have hidx : keyIndexOf i s.progress = none := by rw [keyIndexOf, h, Option.bind_none]
  rw [ksAddr_eq_map_keyIndexOf, ksData_eq_map_keyIndexOf, hidx]
  exact ⟨rfl, rfl⟩

/-- Settles O60: the ports show the key index of an ADVANCE and its word, and NOP, RESET and LOAD have no direction. -/
theorem keyPortFollowsTheKeyIndex : Obligations.KeyPortFollowsTheKeyIndex := by
  refine ⟨fun p a => ?_, fun p a => ?_, ksData_advanceOf_eq_some_iff, fun s blk i hi => ?_⟩
  · refine (ksAddr_advanceOf_eq_some_iff .encrypt p a).trans ?_
    simp only [keyIndexAt_encrypt_iff, exists_prop]
    omega
  · refine (ksAddr_advanceOf_eq_some_iff .decrypt p a).trans ?_
    simp only [keyIndexAt_decrypt_iff, exists_prop]
    omega
  · refine keyPorts_of_no_direction s ?_
    simp only [List.mem_cons, List.not_mem_nil, or_false] at hi
    obtain rfl | rfl | rfl := hi <;> rfl

end Sys2Proof.Machine
end

section
/-! PROOFS. The family 30_encoding.md: what stage 1 makes of a word, which step rows stage 2 selects, the block on the
command port, and the expansion of trace lines. -/

namespace Sys2Proof.Machine

/-! ### Stage 1: decode and encode -/

/-- A command word is its two fields, `blk` above `cmd` (30_encoding.md R82). -/
theorem blkField_append_cmdField (w : CommandWord) : (blkField w ++ cmdField w : CommandWord) = w :=
  PortInput.word_ofWord w

/-- What the words `blk ++ c` decode to, every word of code `c` decodes to. -/
theorem decode_of_cmdField {w : CommandWord} {c : BitVec 3} {r : Except DecodeError Instr} (hc : cmdField w = c)
    (hr : decode (blkField w ++ c : BitVec 131) = r) : decode w = r := by
  subst hc
  rwa [blkField_append_cmdField] at hr

/-- The three codes no command has (30_encoding.md R88). -/
def ReservedCode (c : BitVec 3) : Prop := c = 0b011#3 ∨ c = 0b110#3 ∨ c = 0b111#3

theorem decode_of_reservedCode {w : CommandWord} (h : ReservedCode (cmdField w)) :
    decode w = .error (.reservedCode (cmdField w)) := by
  obtain h | h | h := h <;> rw [h]
  · exact decode_of_cmdField h (decode_reserved3 _)
  · exact decode_of_cmdField h (decode_reserved6 _)
  · exact decode_of_cmdField h (decode_reserved7 _)

theorem code_cases (c : BitVec 3) : ReservedCode c ∨
    c = 0b000#3 ∨ c = 0b001#3 ∨ c = 0b010#3 ∨ c = 0b100#3 ∨ c = 0b101#3 := by
  unfold ReservedCode
  revert c
  decide

/-- Once for all: what stage 1 makes of a word, by its code (30_encoding.md R81, R88). -/
theorem decode_cases (w : CommandWord) :
    (ReservedCode (cmdField w) ∧ decode w = .error (.reservedCode (cmdField w))) ∨
    (cmdField w = 0b000#3 ∧ decode w = .ok .nop) ∨
    (cmdField w = 0b001#3 ∧ decode w = .ok .reset) ∨
    (cmdField w = 0b010#3 ∧ decode w = .ok (.load (blkField w))) ∨
    (cmdField w = 0b100#3 ∧ decode w = .ok .advanceEncrypt) ∨
    (cmdField w = 0b101#3 ∧ decode w = .ok .advanceDecrypt) := by
  obtain h | h | h | h | h | h := code_cases (cmdField w)
  · exact .inl ⟨h, decode_of_reservedCode h⟩
  · exact .inr (.inl ⟨h, decode_of_cmdField h (decode_nop _)⟩)
  · exact .inr (.inr (.inl ⟨h, decode_of_cmdField h (decode_reset _)⟩))
  · exact .inr (.inr (.inr (.inl ⟨h, decode_of_cmdField h (decode_load _)⟩)))
  · exact .inr (.inr (.inr (.inr (.inl ⟨h, decode_of_cmdField h (decode_advanceEncrypt _)⟩))))
  · exact .inr (.inr (.inr (.inr (.inr ⟨h, decode_of_cmdField h (decode_advanceDecrypt _)⟩))))

theorem decode_encode {i : Instr} (h : i.isCommand = true) : decode (encode i) = .ok i := by
  cases i with
  | nop => exact decode_nop _
  | reset => exact decode_reset _
  | load blk => exact decode_load blk
  | advanceEncrypt => exact decode_advanceEncrypt _
  | advanceDecrypt => exact decode_advanceDecrypt _
  | _ => cases h

/-- A decoded command has the word's code, and LOAD the word's block. -/
theorem fields_of_decode {w : CommandWord} {i : Instr} (h : decode w = .ok i) :
    i.isCommand = true ∧ i.code = cmdField w ∧ (cmdField w = 0b010#3 → i.operand = blkField w) := by
  obtain ⟨-, e⟩ | ⟨hc, e⟩ | ⟨hc, e⟩ | ⟨hc, e⟩ | ⟨hc, e⟩ | ⟨hc, e⟩ := decode_cases w <;>
    cases e.symm.trans h <;> rw [hc]
  · exact ⟨rfl, rfl, fun hl => absurd hl (by decide)⟩
  · exact ⟨rfl, rfl, fun hl => absurd hl (by decide)⟩
  · exact ⟨rfl, rfl, fun _ => rfl⟩
  · exact ⟨rfl, rfl, fun hl => absurd hl (by decide)⟩
  · exact ⟨rfl, rfl, fun hl => absurd hl (by decide)⟩

/-- Settles O29: the fields of the word and of the decoded command agree, and a word is its two fields. -/
theorem decodeAndEncodeAgree : Obligations.DecodeAndEncodeAgree := by
  refine ⟨fun i => decode_encode, fun w i h => ?_⟩
  obtain ⟨hi, hcode, hblk⟩ := fields_of_decode h
  refine ⟨hi, (cmdField_encode i).trans hcode, fun hload => ?_⟩
  calc encode i = i.operand ++ i.code := rfl
    _ = blkField w ++ cmdField w := by rw [hcode, hblk hload]
    _ = w := blkField_append_cmdField w

/-- Settles O32. -/
theorem exactlyReservedCodesAreRejected : Obligations.ExactlyReservedCodesAreRejected := by
  intro w
  refine ⟨decode_of_reservedCode, fun hres => ?_, fun h => decode_of_cmdField h (decode_nop _),
    fun h => decode_of_cmdField h (decode_reset _), fun h => decode_of_cmdField h (decode_load _),
    fun h => decode_of_cmdField h (decode_advanceEncrypt _), fun h => decode_of_cmdField h (decode_advanceDecrypt _)⟩
  obtain ⟨h, -⟩ | ⟨-, e⟩ | ⟨-, e⟩ | ⟨-, e⟩ | ⟨-, e⟩ | ⟨-, e⟩ := decode_cases w
  · exact absurd h hres
  all_goals exact ⟨_, e⟩

/-- Settles O33: each of the first four words is a code under an all-zero `blk`. -/
theorem writtenWordsDecode : Obligations.WrittenWordsDecode :=
  ⟨decode_nop 0, decode_reset 0, decode_advanceEncrypt 0, decode_advanceDecrypt 0, decode_load _⟩

/-! ### Stage 2: the rows selected at each `progress` -/

/-- The rows of the encryption direction (30_encoding.md R84). -/
def encRows : List Instr := [.eIdle, .eRound, .eRoundL, .eWhiten, .eMaterialize, .eTerminate]

/-- The rows of the decryption direction (30_encoding.md R85). -/
def decRows : List Instr := [.dIdle, .dWhiten, .dRound, .dLinvRound, .dMaterialize, .dTerminate]

theorem mem_encRows_or_mem_decRows {i : Instr} (h : i.isCommand = false) : i ∈ encRows ∨ i ∈ decRows := by
  cases i with
  | nop | reset | load | advanceEncrypt | advanceDecrypt => cases h
  | eIdle | eRound | eRoundL | eWhiten | eMaterialize | eTerminate => exact .inl (by decide)
  | dIdle | dWhiten | dRound | dLinvRound | dMaterialize | dTerminate => exact .inr (by decide)

/-- The table's selectors and stage 2 agree: of the encryption rows, exactly the one that stage 2 finds holds. -/
theorem filter_encRows (p : BitVec 8) :
    (encRows.filter fun i => i.wellFormedAt p) = ((encStepAt p).map EncStep.instr).toList := by
  obtain ⟨hp, e⟩ | ⟨k, hp, hm, e⟩ | ⟨k, hp, hm, e⟩ | ⟨i, hp, e⟩ | ⟨hp, e⟩ | ⟨hp, e⟩ | ⟨hp, e⟩ := encStepAt_spec p <;>
    rw [e]
  all_goals
    simp only [encRows, Instr.wellFormedAt, List.filter_cons, List.filter_nil, Option.map_some, Option.map_none,
      Option.toList_some, Option.toList_none, EncStep.instr]
    grind

/-- The same of the decryption rows. -/
theorem filter_decRows (p : BitVec 8) :
    (decRows.filter fun i => i.wellFormedAt p) = ((decStepAt p).map DecStep.instr).toList := by
  obtain ⟨hp, e⟩ | ⟨i, hp, e⟩ | ⟨k, hp, hm, e⟩ | ⟨k, hp, hm, e⟩ | ⟨hp, e⟩ | ⟨hp, e⟩ | ⟨hp, e⟩ := decStepAt_spec p <;>
    rw [e]
  all_goals
    simp only [decRows, Instr.wellFormedAt, List.filter_cons, List.filter_nil, Option.map_some, Option.map_none,
      Option.toList_some, Option.toList_none, DecStep.instr]
    grind

/-- Of the encryption rows, a row's selector holds exactly where stage 2 finds a step of that row. -/
theorem wellFormedAt_encRow_iff {i : Instr} (hi : i ∈ encRows) (p : BitVec 8) :
    i.wellFormedAt p = true ↔ ∃ st, encStepAt p = some st ∧ st.instr = i := by
  have h : i ∈ (encRows.filter fun i => i.wellFormedAt p) ↔ i ∈ ((encStepAt p).map EncStep.instr).toList := by
    rw [filter_encRows]
  simpa [hi] using h

/-- Of the decryption rows, a row's selector holds exactly where stage 2 finds a step of that row. -/
theorem wellFormedAt_decRow_iff {i : Instr} (hi : i ∈ decRows) (p : BitVec 8) :
    i.wellFormedAt p = true ↔ ∃ st, decStepAt p = some st ∧ st.instr = i := by
  have h : i ∈ (decRows.filter fun i => i.wellFormedAt p) ↔ i ∈ ((decStepAt p).map DecStep.instr).toList := by
    rw [filter_decRows]
  simpa [hi] using h

theorem encStepAt_isSome_iff (p : BitVec 8) : (encStepAt p).isSome = true ↔ p.toNat ≤ 134 := by
  obtain ⟨hp, e⟩ | ⟨k, hp, -, e⟩ | ⟨k, hp, -, e⟩ | ⟨i, hp, e⟩ | ⟨hp, e⟩ | ⟨hp, e⟩ | ⟨hp, e⟩ := encStepAt_spec p <;>
    simp only [e, Option.isSome_some, Option.isSome_none, true_iff, reduceCtorEq, false_iff] <;> omega

theorem decStepAt_isSome_iff (p : BitVec 8) : (decStepAt p).isSome = true ↔ p.toNat ≤ 134 := by
  obtain ⟨hp, e⟩ | ⟨i, hp, e⟩ | ⟨k, hp, -, e⟩ | ⟨k, hp, -, e⟩ | ⟨hp, e⟩ | ⟨hp, e⟩ | ⟨hp, e⟩ := decStepAt_spec p <;>
    simp only [e, Option.isSome_some, Option.isSome_none, true_iff, reduceCtorEq, false_iff] <;> omega

theorem length_filter_encRows (p : BitVec 8) :
    (encRows.filter fun i => i.wellFormedAt p).length = if p.toNat ≤ 134 then 1 else 0 := by
  rw [filter_encRows, Option.length_toList, Option.isSome_map]
  simp only [encStepAt_isSome_iff]

theorem length_filter_decRows (p : BitVec 8) :
    (decRows.filter fun i => i.wellFormedAt p).length = if p.toNat ≤ 134 then 1 else 0 := by
  rw [filter_decRows, Option.length_toList, Option.isSome_map]
  simp only [decStepAt_isSome_iff]

/-- Settles O31: stage 2 finds one step at each `progress` up to 134 and none above, and its row is the one selected; the
counts are computed over the 256 values of `progress`. -/
theorem stepDecodeIsTotalAndDisjoint : Obligations.StepDecodeIsTotalAndDisjoint :=
  ⟨fun p => ⟨length_filter_encRows p, length_filter_decRows p⟩, rfl, rfl⟩

theorem decodeAt_of_advanceEncrypt {w : CommandWord} (h : decode w = .ok .advanceEncrypt) (p : BitVec 8) (i : Instr) :
    decodeAt p w = .ok i ↔ ∃ st, encStepAt p = some st ∧ st.instr = i := by
  rw [decodeAt, h]
  cases encStepAt p <;> simp

theorem decodeAt_of_advanceDecrypt {w : CommandWord} (h : decode w = .ok .advanceDecrypt) (p : BitVec 8) (i : Instr) :
    decodeAt p w = .ok i ↔ ∃ st, decStepAt p = some st ∧ st.instr = i := by
  rw [decodeAt, h]
  cases decStepAt p <;> simp

theorem code_of_mem_encRows {i : Instr} (hi : i ∈ encRows) : i.code = 0b100#3 := by
  revert i
  decide

/-- A step row's word is its ADVANCE command's (30_encoding.md R93). -/
theorem decode_encode_encRow {i : Instr} (hi : i ∈ encRows) : decode (encode i) = .ok .advanceEncrypt :=
  decode_of_cmdField ((cmdField_encode i).trans (code_of_mem_encRows hi)) (decode_advanceEncrypt _)

theorem code_of_mem_decRows {i : Instr} (hi : i ∈ decRows) : i.code = 0b101#3 := by
  revert i
  decide

/-- A step row's word is its ADVANCE command's (30_encoding.md R93). -/
theorem decode_encode_decRow {i : Instr} (hi : i ∈ decRows) : decode (encode i) = .ok .advanceDecrypt :=
  decode_of_cmdField ((cmdField_encode i).trans (code_of_mem_decRows hi)) (decode_advanceDecrypt _)

/-- Settles O30: both sides say that stage 2 finds a step of the row. -/
theorem stepRowsDecodeWhereSelected : Obligations.StepRowsDecodeWhereSelected := by
  intro i p hi
  obtain hrow | hrow := mem_encRows_or_mem_decRows hi
  · rw [decodeAt_of_advanceEncrypt (decode_encode_encRow hrow), wellFormedAt_encRow_iff hrow]
  · rw [decodeAt_of_advanceDecrypt (decode_encode_decRow hrow), wellFormedAt_decRow_iff hrow]

/-! ### Step rows run where they are selected -/

/-- The five commands complete in every state (44_state_machine_commands.md R190). -/
theorem exec_command_next {i : Instr} (hi : i.isCommand = true) (s : State) : ∃ t, exec i s = .next t := by
  cases i with
  | nop => exact ⟨_, rfl⟩
  | reset => exact ⟨_, rfl⟩
  | load blk => obtain ⟨-, e⟩ | ⟨-, e⟩ := execLoad_cases blk s <;> exact ⟨_, e⟩
  | advanceEncrypt =>
    cases hst : encStepAt s.progress with
    | some st => exact ⟨_, exec_advanceEncrypt_of_selected hst⟩
    | none => exact ⟨_, exec_advanceEncrypt_of_reserved (by simpa [hst] using encStepAt_spec s.progress)⟩
  | advanceDecrypt =>
    cases hst : decStepAt s.progress with
    | some st => exact ⟨_, exec_advanceDecrypt_of_selected hst⟩
    | none => exact ⟨_, exec_advanceDecrypt_of_reserved (by simpa [hst] using decStepAt_spec s.progress)⟩
  | _ => cases hi

theorem encStep_instr_mem_encRows (st : EncStep) : st.instr ∈ encRows := by
  cases st <;> simp [EncStep.instr, encRows]

theorem decStep_instr_mem_decRows (st : DecStep) : st.instr ∈ decRows := by
  cases st <;> simp [DecStep.instr, decRows]

theorem wellFormedAt_of_effect {i : Instr} {s t : State} (h : Effect i s t) : i.wellFormedAt s.progress = true := by
  cases h with
  | nop => rfl
  | reset => rfl
  | loadAccepted => rfl
  | loadRejected => rfl
  | @encStep _ _ st hst hrow =>
    obtain rfl | rfl := hrow
    · rfl
    · exact (wellFormedAt_encRow_iff (encStep_instr_mem_encRows st) _).mpr ⟨st, hst, rfl⟩
  | @decStep _ _ st hst hrow =>
    obtain rfl | rfl := hrow
    · rfl
    · exact (wellFormedAt_decRow_iff (decStep_instr_mem_decRows st) _).mpr ⟨st, hst, rfl⟩
  | reservedProgress hadv => obtain rfl | rfl := hadv <;> rfl

theorem exec_next_of_wellFormedAt {i : Instr} {s : State} (h : i.wellFormedAt s.progress = true) :
    ∃ t, exec i s = .next t := by
  cases hi : i.isCommand with
  | true => exact exec_command_next hi s
  | false =>
    obtain hrow | hrow := mem_encRows_or_mem_decRows hi
    · obtain ⟨st, hst, rfl⟩ := (wellFormedAt_encRow_iff hrow _).mp h
      exact ⟨_, exec_encRow_of_selected hst⟩
    · obtain ⟨st, hst, rfl⟩ := (wellFormedAt_decRow_iff hrow _).mp h
      exact ⟨_, exec_decRow_of_selected hst⟩

/-- The rule of 30_encoding.md R84, R85 for `exec`: an instruction has a next state exactly where its selector holds. -/
theorem exec_next_iff_wellFormedAt (i : Instr) (s : State) :
    (∃ t, exec i s = .next t) ↔ i.wellFormedAt s.progress = true :=
  ⟨fun ⟨_, h⟩ => wellFormedAt_of_effect (effect_of_exec h), exec_next_of_wellFormedAt⟩

/-- The one way in which `exec` answers no next state (log entry 8). -/
theorem exec_next_or_refused (i : Instr) (s : State) :
    (∃ t, exec i s = .next t) ∨ ∃ m, exec i s = .refused (.stepNotSelected m) := by
  cases i with
  | nop | reset | load | advanceEncrypt | advanceDecrypt => exact .inl (exec_command_next rfl s)
  | _ =>
    simp only [exec, execEIdle, execERound, execERoundL, execEWhiten, execEMaterialize, execETerminate, execDIdle,
      execDWhiten, execDRound, execDLinvRound, execDMaterialize, execDTerminate]
    split
    · exact .inl ⟨_, rfl⟩
    · exact .inr ⟨_, rfl⟩

/-- Settles O28: what has no next state is refused by name, and only a row outside its selector has none. -/
theorem unselectedStepRowIsRefused : Obligations.UnselectedStepRowIsRefused := by
  intro i s
  refine ⟨fun h => (exec_next_or_refused i s).resolve_left ?_, exec_next_of_wellFormedAt⟩
  rw [exec_next_iff_wellFormedAt, h]
  exact Bool.false_ne_true

/-! ### The block on the command port -/

/-- Word i of a 128-bit port value is its bits 32i+31:32i (30_encoding.md R83). -/
theorem Block.get_ofBits (v : BitVec 128) (i : Fin 4) : (Block.ofBits v).get i = v.extractLsb' (32 * i.val) 32 := by
  fin_cases i <;> rfl

/-- Bits 32i+31:32i of a block on a port are its word i (44_state_machine_commands.md R205). -/
theorem Block.extractLsb'_toBits (b : Block) (i : Fin 4) : b.toBits.extractLsb' (32 * i.val) 32 = b.get i := by
  fin_cases i
  · exact BitVec.extractLsb'_append_eq_right
  · exact (BitVec.extractLsb'_append_eq_of_le (by decide)).trans BitVec.extractLsb'_append_eq_right
  · exact (BitVec.extractLsb'_append_eq_of_le (by decide)).trans
      ((BitVec.extractLsb'_append_eq_of_le (by decide)).trans BitVec.extractLsb'_append_eq_right)
  · exact (BitVec.extractLsb'_append_eq_of_le (by decide)).trans
      ((BitVec.extractLsb'_append_eq_of_le (by decide)).trans BitVec.extractLsb'_append_eq_left)

theorem Block.ofBits_toBits (b : Block) : Block.ofBits b.toBits = b :=
  Block.ext (b.extractLsb'_toBits 0) (b.extractLsb'_toBits 1) (b.extractLsb'_toBits 2) (b.extractLsb'_toBits 3)

theorem Block.toBits_ofBits (v : BitVec 128) : (Block.ofBits v).toBits = v := by
  show v.extractLsb' 96 32 ++ v.extractLsb' 64 32 ++ v.extractLsb' 32 32 ++ v.extractLsb' 0 32 = v
  rw [BitVec.extractLsb'_append_extractLsb'_eq_extractLsb' (by decide),
    BitVec.extractLsb'_append_extractLsb'_eq_extractLsb' (by decide),
    BitVec.extractLsb'_append_extractLsb'_eq_extractLsb' (by decide)]
  exact BitVec.extractLsb'_eq_self

/-- Settles O38. -/
theorem blockPortRoundTrips : Obligations.BlockPortRoundTrips :=
  ⟨Block.ofBits_toBits, Block.toBits_ofBits, Block.get_ofBits⟩

/-! ### Trace lines -/

/-- LOAD of a block's own port value loads that block into an idle engine. -/
theorem runCommands_load_toBits {s : State} (hs : s.progress.toNat = 0) (b : Block) :
    runCommands [.load b.toBits] s = .next (((s.setX b).setProgress 1).respond Result.loaded) := by
  have hidle : s.progress = 0 := BitVec.eq_of_toNat_eq hs
  rw [runCommands_cons [] (exec_of_effect (.loadAccepted b.toBits hidle)), Block.ofBits_toBits]
  rfl

/-- Settles O58: LOAD and LOADB present the port value of a block, which an idle engine loads; every other line is its
expansion by definition. -/
theorem traceLinesExpandAsTheTableSays : Obligations.TraceLinesExpandAsTheTableSays := by
  refine ⟨fun w0 w1 w2 w3 s => ⟨rfl, fun hs => runCommands_load_toBits hs ⟨w0, w1, w2, w3⟩⟩, rfl, rfl, rfl, rfl, rfl,
    fun B s hs => ⟨_, runCommands_load_toBits hs (Block.ofBytes .little B), rfl, rfl⟩,
    fun w0 w1 w2 w3 => ⟨rfl, rfl⟩, rfl, rfl, rfl, fun n => ⟨rfl, rfl⟩⟩

end Sys2Proof.Machine
end

section
/-! PROOFS. The family 40_arx_primitive.md: A and A_INV undo each other, since each of their three operations (rotation, sum,
XOR) is undone by its counterpart. -/

namespace Sys2Proof.Machine

/-! ### The operations on half-words -/

/-- Rotations by two amounts that add up to the width 16 undo each other (00_scope.md R9). -/
theorem rotl16_rotl16_cancel (v : Half) {n m : Nat} (h : n + m = 16) : rotl16 (rotl16 v n) m = v := by
  refine BitVec.eq_of_getElem_eq fun i hi => ?_
  simp only [rotl16, BitVec.getElem_rotateLeft]
  by_cases him : i < m % 16
  · have hin : ¬ 16 - m % 16 + i < n % 16 := by omega
    simp only [him, hin, dite_true, dite_false, show 16 - m % 16 + i - n % 16 = i by omega]
  · by_cases hin : i - m % 16 < n % 16
    · simp only [him, hin, dite_true, dite_false, show 16 - n % 16 + (i - m % 16) = i by omega]
    · simp only [him, hin, dite_false, show i - m % 16 - n % 16 = i by omega]

theorem sub16_add16_cancel (a b : Half) : sub16 (add16 a b) b = a := BitVec.add_sub_cancel a b

theorem add16_sub16_cancel (a b : Half) : add16 (sub16 a b) b = a := BitVec.sub_add_cancel a b

theorem Half.xor_xor_cancel (a b : Half) : a ^^^ b ^^^ b = a := by
  rw [BitVec.xor_assoc, BitVec.xor_self, BitVec.xor_zero]

/-! ### The ARX primitive and its inverse -/

theorem arx_eq (l r : Half) :
    arx l r = (add16 (rotl16 l 9) r, rotl16 r 2 ^^^ add16 (rotl16 l 9) r) := rfl

theorem arxInv_eq (l r : Half) :
    arxInv l r = (rotl16 (sub16 l (rotl16 (r ^^^ l) 14)) 7, rotl16 (r ^^^ l) 14) := rfl

/-- `A_INV` first recovers `r` from the XOR of the halves, then takes it off the sum. -/
theorem arxInv_arx (l r : Half) : arxInv (arx l r).1 (arx l r).2 = (l, r) := by
  have hr : rotl16 ((arx l r).2 ^^^ (arx l r).1) 14 = r := by
    rw [arx_eq, Half.xor_xor_cancel, rotl16_rotl16_cancel r (show 2 + 14 = 16 from rfl)]
  rw [arxInv_eq, hr, arx_eq, sub16_add16_cancel, rotl16_rotl16_cancel l (show 9 + 7 = 16 from rfl)]

/-- `A` first puts back the sum that is `l`, then the XOR with it. -/
theorem arx_arxInv (l r : Half) : arx (arxInv l r).1 (arxInv l r).2 = (l, r) := by
  have hl : add16 (rotl16 (arxInv l r).1 9) (arxInv l r).2 = l := by
    rw [arxInv_eq, rotl16_rotl16_cancel _ (show 7 + 9 = 16 from rfl), add16_sub16_cancel]
  rw [arx_eq, hl, arxInv_eq, rotl16_rotl16_cancel _ (show 14 + 2 = 16 from rfl), Half.xor_xor_cancel]

/-- Settles O34. -/
theorem arxInverseLaw : Obligations.ArxInverseLaw := fun l r => ⟨arxInv_arx l r, arx_arxInv l r⟩

end Sys2Proof.Machine
end

section
/-! PROOFS. The family 41_linear_layer.md: with MIX the XOR of step 2 of R131 and SWAP the four swaps, L is SWAP after MIX and
L_INV is MIX after SWAP. SWAP and MIX are involutions and commute with XOR, which gives both laws. -/

namespace Sys2Proof.Machine

/-! ### XOR and rotation on half-words and blocks -/

/-- A rotation only moves bits, so it commutes with XOR. -/
theorem rotl16_xor (v w : Half) (n : Nat) : rotl16 (v ^^^ w) n = rotl16 v n ^^^ rotl16 w n := by
  refine BitVec.eq_of_getElem_eq fun i hi => ?_
  simp only [rotl16, BitVec.getElem_rotateLeft, BitVec.getElem_xor]
  split <;> rfl

theorem Block.xor_xor_cancel (a b : Block) : (a.xor b).xor b = a := by
  simp only [Block.xor, BitVec.xor_assoc, BitVec.xor_self, BitVec.xor_zero]

theorem Block.xor_xor_xor_comm (a b c d : Block) : (a.xor b).xor (c.xor d) = (a.xor c).xor (b.xor d) := by
  ext <;> simp only [Block.xor] <;> ac_rfl

/-! ### SWAP and MIX -/

/-- SWAP: the four half-word swaps, step 3 of 41_linear_layer.md R131. -/
def Block.swapHalves (b : Block) : Block := ⟨b.w2, b.w3, b.w0, b.w1⟩

/-- The half-word `t` of 41_linear_layer.md R131. -/
def Block.mixTerm (b : Block) : Half := rotl16 (lo16 b.w0 ^^^ hi16 b.w0 ^^^ lo16 b.w1 ^^^ hi16 b.w1) 8

/-- What MIX XORs onto a block: the cross pattern of R131 with `t` on the words 2 and 3, nothing on the words 0 and 1. -/
def Block.mixMask (b : Block) : Block :=
  ⟨0#32, 0#32, cat (hi16 b.w0) (lo16 b.w1) ^^^ cat b.mixTerm b.mixTerm,
    cat (hi16 b.w1) (lo16 b.w0) ^^^ cat b.mixTerm b.mixTerm⟩

/-- MIX: steps 1 and 2 of 41_linear_layer.md R131. -/
def Block.mix (b : Block) : Block := b.xor b.mixMask

/-- MIX in the word form of 41_linear_layer.md R131. -/
theorem Block.mix_eq (b : Block) : b.mix =
    ⟨b.w0, b.w1, b.w2 ^^^ cat (hi16 b.w0) (lo16 b.w1) ^^^ cat b.mixTerm b.mixTerm,
      b.w3 ^^^ cat (hi16 b.w1) (lo16 b.w0) ^^^ cat b.mixTerm b.mixTerm⟩ := by
  simp only [Block.mix, Block.mixMask, Block.xor, BitVec.xor_zero, BitVec.xor_assoc]

theorem Block.swapHalves_swapHalves (b : Block) : b.swapHalves.swapHalves = b := rfl

theorem Block.swapHalves_xor (a b : Block) : (a.xor b).swapHalves = a.swapHalves.xor b.swapHalves := rfl

/-- MIX leaves what its mask is computed from. -/
theorem Block.mixMask_mix (b : Block) : b.mix.mixMask = b.mixMask := by
  rw [Block.mix_eq]
  rfl

/-- MIX is an involution: the second time, it XORs the same mask again (41_linear_layer.md R133). -/
theorem Block.mix_mix (b : Block) : b.mix.mix = b :=
  calc b.mix.mix = b.mix.xor b.mixMask := by rw [Block.mix, Block.mixMask_mix]
    _ = b := Block.xor_xor_cancel b b.mixMask

theorem Block.mixTerm_xor (a b : Block) : (a.xor b).mixTerm = a.mixTerm ^^^ b.mixTerm := by
  simp only [Block.mixTerm, Block.xor, lo16_xor, hi16_xor, ← rotl16_xor]
  congr 1
  ac_rfl

theorem Block.mixMask_xor (a b : Block) : (a.xor b).mixMask = a.mixMask.xor b.mixMask := by
  simp only [Block.mixMask, Block.mixTerm_xor]
  simp only [Block.xor, lo16_xor, hi16_xor, ← cat_xor_cat, Block.mk.injEq, BitVec.xor_zero, true_and]
  constructor <;> ac_rfl

theorem Block.mix_xor (a b : Block) : (a.xor b).mix = a.mix.xor b.mix := by
  rw [Block.mix, Block.mixMask_xor, Block.xor_xor_xor_comm]
  rfl

/-! ### The two layers -/

/-- A word XORed half by half with two half-words and with `t` (the lane form of 41_linear_layer.md R131 as its word form). -/
theorem cat_xor_xor (w : Word) (hi lo t : Half) :
    cat (hi16 w ^^^ hi ^^^ t) (lo16 w ^^^ lo ^^^ t) = w ^^^ cat hi lo ^^^ cat t t := by
  rw [← cat_xor_cat, ← cat_xor_cat, cat_hi16_lo16]

/-- `L` is SWAP after MIX. -/
theorem linear_eq_swapHalves_mix (b : Block) : linear b = b.mix.swapHalves := by
  simp only [linear, Block.ofHalves, Block.half_zero, Block.half_one, Block.half_two, Block.half_three, Block.half_four,
    Block.half_five, Block.half_six, Block.half_seven, cat_xor_xor, cat_hi16_lo16, Block.mix_eq, Block.swapHalves,
    Block.mixTerm]

/-- `L_INV` is MIX after SWAP. -/
theorem linearInv_eq_mix_swapHalves (b : Block) : linearInv b = b.swapHalves.mix := by
  simp only [linearInv, Block.ofHalves, Block.half_zero, Block.half_one, Block.half_two, Block.half_three,
    Block.half_four, Block.half_five, Block.half_six, Block.half_seven, cat_xor_xor, cat_hi16_lo16, Block.mix_eq,
    Block.swapHalves, Block.mixTerm]

theorem linearInv_linear (b : Block) : linearInv (linear b) = b := by
  rw [linearInv_eq_mix_swapHalves, linear_eq_swapHalves_mix, Block.swapHalves_swapHalves, Block.mix_mix]

theorem linear_linearInv (b : Block) : linear (linearInv b) = b := by
  rw [linearInv_eq_mix_swapHalves, linear_eq_swapHalves_mix, Block.mix_mix, Block.swapHalves_swapHalves]

theorem linear_xor (a b : Block) : linear (a.xor b) = (linear a).xor (linear b) := by
  simp only [linear_eq_swapHalves_mix, Block.mix_xor, Block.swapHalves_xor]

theorem linearInv_xor (a b : Block) : linearInv (a.xor b) = (linearInv a).xor (linearInv b) := by
  simp only [linearInv_eq_mix_swapHalves, Block.swapHalves_xor, Block.mix_xor]

/-- Settles O35: between the two layers meet two SWAPs or two MIXes, which cancel, and then the outer two. -/
theorem linearInverseLaw : Obligations.LinearInverseLaw := fun b => ⟨linearInv_linear b, linear_linearInv b⟩

/-- Settles O36: linearity from that of SWAP and MIX; the values at zero and at the spec's example are computed. -/
theorem mixingLayersAreLinear : Obligations.MixingLayersAreLinear :=
  ⟨fun a b => ⟨linear_xor a b, linearInv_xor a b⟩, by decide, by decide, by decide⟩

end Sys2Proof.Machine
end

section
/-! PROOFS. The family 42_round_engine_encrypt.md: what each step row of the encryption direction writes, and that a whole
run computes ENC. The run follows R157's loop nest: `Carries` says what a stretch of ADVANCE commands does to the working block,
and one rule for loops carries it from the round step through the round, the branch and the macro-step loop. -/

namespace Sys2Proof.Machine

/-! ### The operation of a step, in the words of the rules -/

/-- The round operation of 42_round_engine_encrypt.md R151 with `A` written out (40_arx_primitive.md R111). -/
theorem roundBlock_eq {b : Fin 4} {key v : Word} {left right l r : Half} (x : Block) (hv : v = x.get b ^^^ key)
    (hleft : left = v.extractLsb' 0 16) (hright : right = v.extractLsb' 16 16)
    (hl : l = left.rotateLeft 9 + right) (hr : r = right.rotateLeft 2 ^^^ l) :
    roundBlock b key x = x.set b (r ++ l) := by
  subst hv hleft hright hl hr
  rfl

/-- `L` in the word form of 41_linear_layer.md R131. -/
theorem linear_eq (b : Block) : linear b =
    ⟨b.w2 ^^^ cat (hi16 b.w0) (lo16 b.w1) ^^^ cat b.mixTerm b.mixTerm,
      b.w3 ^^^ cat (hi16 b.w1) (lo16 b.w0) ^^^ cat b.mixTerm b.mixTerm, b.w0, b.w1⟩ := by
  rw [linear_eq_swapHalves_mix, Block.mix_eq]
  rfl

/-- The mixing round step of a macro-step is on branch 3 (30_encoding.md R86). -/
theorem branch_of_mixing {k : Fin 128} (hk : k.val % 16 = 15) : branch k = 3 :=
  Fin.ext (show k.val / 4 % 4 = 3 by omega)

/-! ### The six step rows -/

/-- Settles O16: the row selected there is the round step of `k`, whose branch and key index are the named ones. -/
theorem eRoundTransformsItsBranch : Obligations.ERoundTransformsItsBranch := by
  intro s k b idx v left right l r hp hk hb hidx hv hleft hright hl hr
  obtain rfl : b = branch k := Fin.ext hb
  obtain rfl : idx = roundKeyIndex k := Fin.ext hidx
  calc exec .eRound s = .next (encRound k s) := exec_encRow_of_selected (encStepAt_round hp hk)
    _ = _ := by rw [encRound, workStep_eq, roundBlock_eq s.x hv hleft hright hl hr]

/-- Settles O17: as O16 on branch 3, then `L` in its word form. -/
theorem eRoundLMixesAfterTheRound : Obligations.ERoundLMixesAfterTheRound := by
  intro s k idx v x3 left right l r t hp hk hidx hv hleft hright hl hr hx3 ht
  obtain rfl : idx = roundKeyIndex k := Fin.ext hidx
  have hround : roundBlock (branch k) (s.ks.read (roundKeyIndex k)) s.x = ⟨s.x.w0, s.x.w1, s.x.w2, x3⟩ := by
    rw [branch_of_mixing hk, roundBlock_eq s.x hv hleft hright hl hr, hx3, Block.set_three]
  calc exec .eRoundL s = .next (encRoundL k s) := exec_encRow_of_selected (encStepAt_roundL hp hk)
    _ = _ := by
      rw [encRoundL, workStep_eq, hround, linear_eq, ht]
      rfl

/-- Settles O18: the key index the step computes is the named one. -/
theorem eWhitenXorsOneWord : Obligations.EWhitenXorsOneWord := by
  intro s i idx hp hidx
  obtain rfl : idx = whitenKeyIndex i := Fin.ext hidx
  exact exec_encRow_of_selected (encStepAt_whiten hp)

/-- Settles O19. -/
theorem eMaterializeCopiesTheBlock : Obligations.EMaterializeCopiesTheBlock := fun _ hp =>
  exec_encRow_of_selected (encStepAt_materialize hp)

/-- Settles O20. -/
theorem eTerminateCompletes : Obligations.ETerminateCompletes := fun _ hp =>
  exec_encRow_of_selected (encStepAt_terminate hp)

/-- Settles O21. -/
theorem eIdleWritesNothing : Obligations.EIdleWritesNothing := fun _ hp =>
  exec_encRow_of_selected (encStepAt_idle hp)

/-! ### Stretches of a run -/

theorem runCommands_append {is : List Instr} {s t : State} (js : List Instr) (h : runCommands is s = .next t) :
    runCommands (is ++ js) s = runCommands js t := by
  induction is generalizing s with
  | nil => cases h; rfl
  | cons i is ih =>
    cases hi : exec i s with
    | next u =>
      rw [runCommands_cons is hi] at h
      rw [List.cons_append, runCommands_cons _ hi, ih h]
    | fault f => cases f
    | refused f => simp [runCommands, hi] at h

/-- `n` commands `i` carry an engine whose schedule is `ks` from `progress` `p` to `p + n` and its working block through `f`;
beside the result bits, which the next command overwrites, they change nothing else. -/
def Carries (i : Instr) (ks : Memory) (p n : Nat) (f : Block → Block) : Prop :=
  ∀ s : State, s.ks = ks → s.progress.toNat = p → ∃ (q : BitVec 8) (r : Result), q.toNat = p + n ∧
    runCommands (List.replicate n i) s = .next { s with progress := q, x := f s.x, result := r }

theorem Carries.zero (i : Instr) (ks : Memory) (p : Nat) : Carries i ks p 0 id :=
  fun s _ hp => ⟨s.progress, s.result, hp, rfl⟩

/-- One command that performs a working step. -/
theorem Carries.one {i : Instr} {ks : Memory} {p : Nat} {f : Block → Block} (hp : p ≤ 132)
    (h : ∀ s : State, s.ks = ks → s.progress.toNat = p → exec i s = .next (workStep (f s.x) s)) :
    Carries i ks p 1 f := by
  intro s hks hs
  exact ⟨s.progress + 1, Result.pending, by bv_omega, runCommands_cons [] (h s hks hs)⟩

/-- Two stretches, one after the other. -/
theorem Carries.trans {i : Instr} {ks : Memory} {p m n : Nat} {f g : Block → Block} (hf : Carries i ks p m f)
    (hg : Carries i ks (p + m) n g) : Carries i ks p (m + n) (g ∘ f) := by
  intro s hks hs
  obtain ⟨q, r, hq, hrun⟩ := hf s hks hs
  obtain ⟨q', r', hq', hrun'⟩ := hg { s with progress := q, x := f s.x, result := r } hks hq
  refine ⟨q', r', by omega, ?_⟩
  rw [List.replicate_add, runCommands_append _ hrun, hrun']
  rfl

/-- The rule for loops: where the pass for the element at place `j` takes the `c` commands from `progress` `p + c * j` on,
the loop over the list is one stretch. -/
theorem Carries.foldl {α : Type} {i : Instr} {ks : Memory} {c : Nat} {body : Block → α → Block} (l : List α) (p : Nat)
    (h : ∀ (j : Nat) (hj : j < l.length), Carries i ks (p + c * j) c (fun x => body x l[j])) :
    Carries i ks p (c * l.length) (fun x => l.foldl body x) := by
  induction l generalizing p with
  | nil => exact Carries.zero i ks p
  | cons a l ih =>
    have first : Carries i ks p c (fun x => body x a) := h 0 (Nat.succ_pos _)
    have rest : Carries i ks (p + c) (c * l.length) (fun x => l.foldl body x) := by
      refine ih (p + c) fun j hj => ?_
      rw [show p + c + c * j = p + c * (j + 1) by ring]
      exact h (j + 1) (Nat.succ_lt_succ hj)
    rw [List.length_cons, show c * (l.length + 1) = c + c * l.length by ring]
    exact first.trans rest

/-! ### The loop nest of ENC -/

theorem upTo4_getElem (j : Nat) (hj : j < upTo4.length) : upTo4[j].val = j := by
  simp [show upTo4 = List.finRange 4 from rfl]

theorem upTo8_getElem (j : Nat) (hj : j < upTo8.length) : upTo8[j].val = j := by
  simp [show upTo8 = List.finRange 8 from rfl]

@[simp] theorem branch_roundIndex (s : Fin 8) (b r : Fin 4) : branch (roundIndex s b r) = b :=
  Fin.ext (show (16 * s.val + 4 * b.val + r.val) / 4 % 4 = b.val by omega)

/-- `L` closes the last round of the last branch of a macro-step (42_round_engine_encrypt.md R152). -/
theorem mixes_roundIndex (s : Fin 8) (b r : Fin 4) : mixes (roundIndex s b r) = (b == 3 && r == 3) := by
  rw [Bool.eq_iff_iff]
  simp only [mixes, roundIndex, beq_iff_eq, Bool.and_eq_true, Fin.ext_iff]
  show (16 * s.val + 4 * b.val + r.val) % 16 = 15 ↔ b.val = 3 ∧ r.val = 3
  omega

/-- What the encryption step of round operation `k` does to the working block, with `L` where it mixes; `carries_encOp` ties
it to ADVANCE_ENCRYPT. -/
def encOp (ks : Memory) (k : Fin Config.mainOps) (x : Block) : Block :=
  if mixes k then linear (roundBlock (branch k) (ks.read (roundKeyIndex k)) x)
  else roundBlock (branch k) (ks.read (roundKeyIndex k)) x

theorem carries_encOp (ks : Memory) {p : Nat} (k : Fin 128) (hp : p = k.val + 1) :
    Carries .advanceEncrypt ks p 1 (encOp ks k) := by
  refine Carries.one (by omega) fun s hks hs => ?_
  subst hks
  by_cases hk : k.val % 16 = 15
  · have hop : encOp s.ks k s.x = linear (roundBlock (branch k) (s.ks.read (roundKeyIndex k)) s.x) :=
      if_pos (beq_iff_eq.mpr hk)
    rw [exec_advanceEncrypt_of_selected (encStepAt_roundL (hs.trans hp) hk), hop]
    rfl
  · have hop : encOp s.ks k s.x = roundBlock (branch k) (s.ks.read (roundKeyIndex k)) s.x :=
      if_neg (mt beq_iff_eq.mp hk)
    rw [exec_advanceEncrypt_of_selected (encStepAt_round (hs.trans hp) hk), hop]
    rfl

/-- `L` comes once in a macro-step, after its sixteenth round operation. -/
theorem foldl_encOp_eq_macroStep (ks : Memory) (x : Block) (s : Fin 8) :
    upTo4.foldl (fun x b => upTo4.foldl (fun x r => encOp ks (roundIndex s b r) x) x) x = macroStep ks x s := by
  simp only [encOp, branch_roundIndex, mixes_roundIndex]
  rfl

theorem carries_macroStep (ks : Memory) {p : Nat} (s : Fin 8) (hp : p = 16 * s.val + 1) :
    Carries .advanceEncrypt ks p 16 (fun x => macroStep ks x s) := by
  simp only [← foldl_encOp_eq_macroStep]
  refine Carries.foldl (c := 4) upTo4 p fun jb hb => ?_
  refine Carries.foldl (c := 1) upTo4 (p + 4 * jb) fun jr hr => ?_
  refine carries_encOp ks (roundIndex s upTo4[jb] upTo4[jr]) ?_
  simp only [roundIndex, upTo4_getElem]
  omega

theorem carries_whiten (ks : Memory) {p : Nat} (i : Fin 4) (hp : p = 129 + i.val) :
    Carries .advanceEncrypt ks p 1 (whitenBlock i (ks.read (whitenKeyIndex i))) := by
  refine Carries.one (by omega) fun s hks hs => ?_
  subst hks
  exact exec_advanceEncrypt_of_selected (encStepAt_whiten (hs.trans hp))

/-- The 132 working steps of an encryption compute ENC (42_round_engine_encrypt.md R157). -/
theorem carries_enc (ks : Memory) : Carries .advanceEncrypt ks 1 132 (enc ks) := by
  have rounds : Carries .advanceEncrypt ks 1 128 (fun x => upTo8.foldl (macroStep ks) x) := by
    refine Carries.foldl (c := 16) upTo8 1 fun j hj => carries_macroStep ks _ ?_
    rw [upTo8_getElem]
    omega
  have whitening : Carries .advanceEncrypt ks 129 4 (whitenAll ks) := by
    refine Carries.foldl (c := 1) upTo4 129 fun j hj => carries_whiten ks _ ?_
    rw [upTo4_getElem]
    omega
  exact rounds.trans whitening

/-! ### A whole run -/

/-- A direction whose 132 working steps compute `f`, and which then copies and ends as 42_round_engine_encrypt.md R154 and
R155 say, computes `f` from LOAD to `done`. -/
theorem runCommands_block {i : Instr} {f : Block → Block} {s : State} (hs : s.progress.toNat = 0) (P : Block)
    (hwork : Carries i s.ks 1 132 f)
    (hcopy : ∀ t : State, t.progress.toNat = 133 → exec i t = .next (materialize t))
    (hend : ∀ t : State, t.progress.toNat = 134 → exec i t = .next (terminate t)) :
    runCommands (.load P.toBits :: List.replicate 133 i) s = .next { s with
      progress := 134, x := f P, out := f P, result := ⟨false, false, 0b00#2⟩ } ∧
    runCommands (.load P.toBits :: List.replicate 134 i) s = .next { s with
      progress := 0, x := f P, out := f P, result := ⟨false, true, 0b00#2⟩ } := by
  obtain ⟨q, r, hq, hrun⟩ := hwork (((s.setX P).setProgress 1).respond Result.loaded) rfl rfl
  have copied : runCommands (.load P.toBits :: List.replicate 133 i) s = .next { s with
      progress := 134, x := f P, out := f P, result := ⟨false, false, 0b00#2⟩ } := by
    rw [← List.singleton_append, runCommands_append _ (runCommands_load_toBits hs P), List.replicate_succ' (n := 132),
      runCommands_append _ hrun, runCommands_cons [] (hcopy _ hq)]
    rfl
  refine ⟨copied, ?_⟩
  rw [List.replicate_succ' (n := 133), ← List.cons_append, runCommands_append _ copied, runCommands_cons [] (hend _ rfl)]
  rfl

/-- Settles O54: the working steps compute ENC, and the two rows selected after them are the copy and the end. -/
theorem encryptionRunComputesEnc : Obligations.EncryptionRunComputesEnc := fun s P hs =>
  runCommands_block hs P (carries_enc s.ks)
    (fun _ ht => exec_advanceEncrypt_of_selected (encStepAt_materialize ht))
    (fun _ ht => exec_advanceEncrypt_of_selected (encStepAt_terminate ht))

end Sys2Proof.Machine
end

section
/-! PROOFS. The family 43_round_engine_decrypt.md: what each step row of the decryption direction writes, that a whole run
computes DEC, and that each step undoes its mirror step. Every law of R178 is one cancellation, of `decOp` against `encOp` or of
the de-whitening against the whitening, taken through a pair of steps or through the loop nests of R157 and R177. -/

namespace Sys2Proof.Machine

/-! ### The operation of a step, in the words of the rules -/

/-- The inverse round operation of 43_round_engine_decrypt.md R172 with `A_INV` written out (40_arx_primitive.md R112). -/
theorem unroundBlock_eq {b : Fin 4} {left right l r : Half} (key : Word) (x : Block)
    (hleft : left = (x.get b).extractLsb' 0 16) (hright : right = (x.get b).extractLsb' 16 16)
    (hr : r = (right ^^^ left).rotateLeft 14) (hl : l = (left - r).rotateLeft 7) :
    unroundBlock b key x = x.set b ((r ++ l) ^^^ key) := by
  subst hl hr hleft hright
  rfl

/-- `L_INV` in the word form of 41_linear_layer.md R132. -/
theorem linearInv_eq (b : Block) : linearInv b =
    ⟨b.w2, b.w3, b.w0 ^^^ cat (hi16 b.w2) (lo16 b.w3) ^^^ cat b.swapHalves.mixTerm b.swapHalves.mixTerm,
      b.w1 ^^^ cat (hi16 b.w3) (lo16 b.w2) ^^^ cat b.swapHalves.mixTerm b.swapHalves.mixTerm⟩ := by
  rw [linearInv_eq_mix_swapHalves, Block.mix_eq]
  rfl

/-! ### The six step rows -/

/-- Settles O22: the key index the step computes is the named one. -/
theorem dWhitenXorsOneWord : Obligations.DWhitenXorsOneWord := by
  intro s i idx hp hidx
  obtain rfl : idx = whitenKeyIndex i := Fin.ext hidx
  exact exec_decRow_of_selected (decStepAt_whiten hp)

/-- Settles O23: the row selected there is the inverse round step of `k`, whose branch and key index are the named ones. -/
theorem dRoundUndoesItsBranch : Obligations.DRoundUndoesItsBranch := by
  intro s k b idx left right l r hp hk hb hidx hleft hright hr hl
  obtain rfl : b = branch k := Fin.ext hb
  obtain rfl : idx = roundKeyIndex k := Fin.ext hidx
  calc exec .dRound s = .next (decRound k s) := exec_decRow_of_selected (decStepAt_round hp hk)
    _ = _ := by rw [decRound, workStep_eq, unroundBlock_eq _ s.x hleft hright hr hl]

/-- Settles O24: `L_INV` in its word form, then as O23 on branch 3 of what it left. -/
theorem dLinvRoundUnmixesBeforeTheRound : Obligations.DLinvRoundUnmixesBeforeTheRound := by
  intro s k idx t y2 y3 left right l r hp hk hidx ht hy2 hy3 hleft hright hr hl
  obtain rfl : idx = roundKeyIndex k := Fin.ext hidx
  have hunmixed : linearInv s.x = ⟨s.x.w2, s.x.w3, y2, y3⟩ := by
    rw [linearInv_eq, hy2, hy3, ht]
    rfl
  have hround : unroundBlock 3 (s.ks.read (roundKeyIndex k)) ⟨s.x.w2, s.x.w3, y2, y3⟩ =
      ⟨s.x.w2, s.x.w3, y2, (r ++ l) ^^^ s.ks.read (roundKeyIndex k)⟩ :=
    unroundBlock_eq (b := 3) _ ⟨s.x.w2, s.x.w3, y2, y3⟩ hleft hright hr hl
  calc exec .dLinvRound s = .next (decLinvRound k s) := exec_decRow_of_selected (decStepAt_linvRound hp hk)
    _ = _ := by rw [decLinvRound, workStep_eq, branch_of_mixing hk, hunmixed, hround]

/-- Settles O25. -/
theorem dMaterializeCopiesTheBlock : Obligations.DMaterializeCopiesTheBlock := fun _ hp =>
  exec_decRow_of_selected (decStepAt_materialize hp)

/-- Settles O26. -/
theorem dTerminateCompletes : Obligations.DTerminateCompletes := fun _ hp =>
  exec_decRow_of_selected (decStepAt_terminate hp)

/-- Settles O27. -/
theorem dIdleWritesNothing : Obligations.DIdleWritesNothing := fun _ hp =>
  exec_decRow_of_selected (decStepAt_idle hp)

/-! ### The loop nest of DEC -/

theorem downFrom4_getElem (j : Nat) (hj : j < downFrom4.length) : downFrom4[j].val = 3 - j := by
  simp [show downFrom4 = (List.finRange 4).reverse from rfl]

theorem downFrom8_getElem (j : Nat) (hj : j < downFrom8.length) : downFrom8[j].val = 7 - j := by
  simp [show downFrom8 = (List.finRange 8).reverse from rfl]

/-- What the decryption step of round operation `k` does to the working block, after `L_INV` where it mixes; `carries_decOp`
ties it to ADVANCE_DECRYPT. -/
def decOp (ks : Memory) (k : Fin Config.mainOps) (x : Block) : Block :=
  if mixes k then unroundBlock (branch k) (ks.read (roundKeyIndex k)) (linearInv x)
  else unroundBlock (branch k) (ks.read (roundKeyIndex k)) x

theorem carries_decOp (ks : Memory) {p : Nat} (k : Fin 128) (hp : p + k.val = 132) :
    Carries .advanceDecrypt ks p 1 (decOp ks k) := by
  refine Carries.one (by omega) fun s hks hs => ?_
  subst hks hs
  by_cases hk : k.val % 16 = 15
  · have hop : decOp s.ks k s.x = unroundBlock (branch k) (s.ks.read (roundKeyIndex k)) (linearInv s.x) :=
      if_pos (beq_iff_eq.mpr hk)
    rw [exec_advanceDecrypt_of_selected (decStepAt_linvRound hp hk), hop]
    rfl
  · have hop : decOp s.ks k s.x = unroundBlock (branch k) (s.ks.read (roundKeyIndex k)) s.x :=
      if_neg (mt beq_iff_eq.mp hk)
    rw [exec_advanceDecrypt_of_selected (decStepAt_round hp hk), hop]
    rfl

/-- `L_INV` comes once in a macro-step, before its sixteenth round operation is undone. -/
theorem foldl_decOp_eq_macroStepInv (ks : Memory) (x : Block) (s : Fin 8) :
    downFrom4.foldl (fun x b => downFrom4.foldl (fun x r => decOp ks (roundIndex s b r) x) x) x =
      macroStepInv ks x s := by
  simp only [decOp, branch_roundIndex, mixes_roundIndex]
  rfl

theorem carries_macroStepInv (ks : Memory) {p : Nat} (s : Fin 8) (hp : p + 16 * s.val = 117) :
    Carries .advanceDecrypt ks p 16 (fun x => macroStepInv ks x s) := by
  simp only [← foldl_decOp_eq_macroStepInv]
  refine Carries.foldl (c := 4) downFrom4 p fun jb hb => ?_
  refine Carries.foldl (c := 1) downFrom4 (p + 4 * jb) fun jr hr => ?_
  refine carries_decOp ks (roundIndex s downFrom4[jb] downFrom4[jr]) ?_
  have hb' : jb < 4 := hb
  have hr' : jr < 4 := hr
  simp only [roundIndex, downFrom4_getElem]
  omega

theorem carries_dewhiten (ks : Memory) {p : Nat} (i : Fin 4) (hp : p = i.val + 1) :
    Carries .advanceDecrypt ks p 1 (whitenBlock i (ks.read (whitenKeyIndex i))) := by
  refine Carries.one (by omega) fun s hks hs => ?_
  subst hks
  exact exec_advanceDecrypt_of_selected (decStepAt_whiten (hs.trans hp))

/-- DEC as its two stretches; stated so that no unifier meets the loop nest itself. -/
theorem dec_eq_comp (ks : Memory) : dec ks = (fun x => downFrom8.foldl (macroStepInv ks) x) ∘ whitenAll ks :=
  funext fun x => by rw [Function.comp_apply, dec]

/-- The 132 working steps of a decryption compute DEC (43_round_engine_decrypt.md R177). -/
theorem carries_dec (ks : Memory) : Carries .advanceDecrypt ks 1 132 (dec ks) := by
  have dewhitening : Carries .advanceDecrypt ks 1 4 (whitenAll ks) := by
    refine Carries.foldl (c := 1) upTo4 1 fun j hj => carries_dewhiten ks _ ?_
    rw [upTo4_getElem]
    omega
  have rounds : Carries .advanceDecrypt ks 5 128 (fun x => downFrom8.foldl (macroStepInv ks) x) := by
    refine Carries.foldl (c := 16) downFrom8 5 fun j hj => carries_macroStepInv ks _ ?_
    have hj' : j < 8 := hj
    rw [downFrom8_getElem]
    omega
  rw [dec_eq_comp]
  exact dewhitening.trans rounds

/-- Settles O55: the working steps compute DEC, and the two rows selected after them are the copy and the end. -/
theorem decryptionRunComputesDec : Obligations.DecryptionRunComputesDec := fun s C hs =>
  runCommands_block hs C (carries_dec s.ks)
    (fun _ ht => exec_advanceDecrypt_of_selected (decStepAt_materialize ht))
    (fun _ ht => exec_advanceDecrypt_of_selected (decStepAt_terminate ht))

/-! ### A step and its mirror step -/

/-- `A` on the word that holds the half-word pair; `roundBlock_eq_set` ties it to the round operation. -/
def arxWord (v : Word) : Word := cat (arx (lo16 v) (hi16 v)).2 (arx (lo16 v) (hi16 v)).1

/-- `A_INV` on the word that holds the half-word pair; `unroundBlock_eq_set` ties it to the inverse round operation. -/
def arxInvWord (v : Word) : Word := cat (arxInv (lo16 v) (hi16 v)).2 (arxInv (lo16 v) (hi16 v)).1

theorem arxInvWord_arxWord (v : Word) : arxInvWord (arxWord v) = v := by
  rw [arxInvWord, arxWord, lo16_cat, hi16_cat, arxInv_arx, cat_hi16_lo16]

theorem arxWord_arxInvWord (v : Word) : arxWord (arxInvWord v) = v := by
  rw [arxWord, arxInvWord, lo16_cat, hi16_cat, arx_arxInv, cat_hi16_lo16]

theorem roundBlock_eq_set (b : Fin 4) (key : Word) (x : Block) :
    roundBlock b key x = x.set b (arxWord (x.get b ^^^ key)) := rfl

theorem unroundBlock_eq_set (b : Fin 4) (key : Word) (x : Block) :
    unroundBlock b key x = x.set b (arxInvWord (x.get b) ^^^ key) := rfl

theorem unroundBlock_roundBlock (b : Fin 4) (key : Word) (x : Block) : unroundBlock b key (roundBlock b key x) = x := by
  rw [unroundBlock_eq_set, roundBlock_eq_set, Block.get_set_same, arxInvWord_arxWord, xor_cancel_right,
    Block.set_set, Block.set_get]

theorem roundBlock_unroundBlock (b : Fin 4) (key : Word) (x : Block) : roundBlock b key (unroundBlock b key x) = x := by
  rw [roundBlock_eq_set, unroundBlock_eq_set, Block.get_set_same, xor_cancel_right, arxWord_arxInvWord,
    Block.set_set, Block.set_get]

theorem whitenBlock_whitenBlock (i : Fin 4) (key : Word) (x : Block) : whitenBlock i key (whitenBlock i key x) = x := by
  rw [whitenBlock, whitenBlock, Block.get_set_same, xor_cancel_right, Block.set_set, Block.set_get]

/-- Where `k` mixes, `L_INV` comes first and meets the `L` that came last. -/
theorem decOp_encOp (ks : Memory) (k : Fin 128) (x : Block) : decOp ks k (encOp ks k x) = x := by
  cases hk : mixes k with
  | true => simp only [decOp, encOp, hk, if_true, linearInv_linear, unroundBlock_roundBlock]
  | false => simp only [decOp, encOp, hk, Bool.false_eq_true, if_false, unroundBlock_roundBlock]

/-- Where `k` mixes, `L` comes last and meets the `L_INV` that came first. -/
theorem encOp_decOp (ks : Memory) (k : Fin 128) (x : Block) : encOp ks k (decOp ks k x) = x := by
  cases hk : mixes k with
  | true => simp only [decOp, encOp, hk, if_true, roundBlock_unroundBlock, linear_linearInv]
  | false => simp only [decOp, encOp, hk, Bool.false_eq_true, if_false, roundBlock_unroundBlock]

/-- What one step of a stretch, if it answers a next state, does to the block and the schedule. -/
theorem Carries.of_exec {i : Instr} {s t : State} {f : Block → Block} (hf : Carries i s.ks s.progress.toNat 1 f)
    (h : exec i s = .next t) : t.x = f s.x ∧ t.ks = s.ks := by
  obtain ⟨q, r, -, hrun⟩ := hf s rfl rfl
  have hone : runCommands [i] s = .next t := runCommands_cons [] h
  cases hrun.symm.trans hone
  exact ⟨rfl, rfl⟩

/-- A step and then, at `progress` `q`, a step that undoes it. -/
theorem x_eq_of_mirror {i j : Instr} {s t u : State} {q : BitVec 8} {f g : Block → Block}
    (hf : Carries i s.ks s.progress.toNat 1 f) (hg : Carries j s.ks q.toNat 1 g) (hcancel : ∀ x, g (f x) = x)
    (hi : exec i s = .next t) (hj : exec j { t with progress := q } = .next u) : u.x = s.x := by
  obtain ⟨htx, htks⟩ := hf.of_exec hi
  rw [← htks] at hg
  obtain ⟨hux, -⟩ := Carries.of_exec (s := { t with progress := q }) hg hj
  calc u.x = g t.x := hux
    _ = s.x := by rw [htx, hcancel]

/-! ### DEC and ENC -/

/-- A loop is undone by the loop that undoes its passes in the reverse order. -/
theorem foldl_reverse_foldl_cancel {α β : Type} {f g : β → α → β} (h : ∀ x a, g (f x a) a = x) (l : List α) (x : β) :
    l.reverse.foldl g (l.foldl f x) = x := by
  induction l generalizing x with
  | nil => rfl
  | cons a l ih => rw [List.foldl_cons, List.reverse_cons, List.foldl_append, ih, List.foldl_cons, h, List.foldl_nil]

theorem macroStepInv_macroStep (ks : Memory) (x : Block) (s : Fin 8) : macroStepInv ks (macroStep ks x s) s = x := by
  rw [← foldl_encOp_eq_macroStep, ← foldl_decOp_eq_macroStepInv]
  exact foldl_reverse_foldl_cancel
    (fun x b => foldl_reverse_foldl_cancel (fun x r => decOp_encOp ks (roundIndex s b r) x) upTo4 x) upTo4 x

theorem macroStep_macroStepInv (ks : Memory) (x : Block) (s : Fin 8) : macroStep ks (macroStepInv ks x s) s = x := by
  rw [← foldl_encOp_eq_macroStep, ← foldl_decOp_eq_macroStepInv]
  exact foldl_reverse_foldl_cancel
    (fun x b => foldl_reverse_foldl_cancel (fun x r => encOp_decOp ks (roundIndex s b r) x) downFrom4 x) downFrom4 x

/-- The four operations are on different words, so together they XOR one block. -/
theorem whitenAll_eq_xor (ks : Memory) (x : Block) : whitenAll ks x =
    x.xor ⟨ks.read (whitenKeyIndex 0), ks.read (whitenKeyIndex 1), ks.read (whitenKeyIndex 2),
      ks.read (whitenKeyIndex 3)⟩ := rfl

theorem whitenAll_whitenAll (ks : Memory) (x : Block) : whitenAll ks (whitenAll ks x) = x := by
  rw [whitenAll_eq_xor, whitenAll_eq_xor, Block.xor_xor_cancel]

theorem dec_enc (ks : Memory) (b : Block) : dec ks (enc ks b) = b := by
  rw [dec, enc, whitenAll_whitenAll]
  exact foldl_reverse_foldl_cancel (macroStepInv_macroStep ks) upTo8 b

theorem enc_dec (ks : Memory) (b : Block) : enc ks (dec ks b) = b := by
  have hrounds : upTo8.foldl (macroStep ks) (dec ks b) = whitenAll ks b :=
    foldl_reverse_foldl_cancel (macroStep_macroStepInv ks) downFrom8 (whitenAll ks b)
  rw [enc, hrounds, whitenAll_whitenAll]

/-- Settles O53: the decryption step at `p` is that of the round operation `132 - p` or of the word `p - 1`, and so is the
encryption step at its mirror place. -/
theorem mirrorLaw : Obligations.MirrorLaw := by
  refine ⟨?roundUndone, ?whiteningUndone, ?unroundUndone, ?dewhiteningUndone, fun ks b => ⟨dec_enc ks b, enc_dec ks b⟩⟩
  case roundUndone =>
    intro s t u p h5 h132 hs
    let k : Fin 128 := ⟨132 - p.toNat, by omega⟩
    exact x_eq_of_mirror (carries_encOp s.ks k (show _ = 132 - p.toNat + 1 by omega))
      (carries_decOp s.ks k (show p.toNat + (132 - p.toNat) = 132 by omega)) (decOp_encOp s.ks k)
  case whiteningUndone =>
    intro s t u p h1 h4 hs
    let i : Fin 4 := ⟨p.toNat - 1, by omega⟩
    exact x_eq_of_mirror (carries_whiten s.ks i (show _ = 129 + (p.toNat - 1) by omega))
      (carries_dewhiten s.ks i (show p.toNat = p.toNat - 1 + 1 by omega)) (whitenBlock_whitenBlock i _)
  case unroundUndone =>
    intro s t u q h5 h132 hq
    let k : Fin 128 := ⟨132 - s.progress.toNat, by omega⟩
    exact x_eq_of_mirror (carries_decOp s.ks k (show s.progress.toNat + (132 - s.progress.toNat) = 132 by omega))
      (carries_encOp s.ks k (show q.toNat = 132 - s.progress.toNat + 1 by omega)) (encOp_decOp s.ks k)
  case dewhiteningUndone =>
    intro s t u q h1 h4 hq
    let i : Fin 4 := ⟨s.progress.toNat - 1, by omega⟩
    exact x_eq_of_mirror (carries_dewhiten s.ks i (show s.progress.toNat = s.progress.toNat - 1 + 1 by omega))
      (carries_whiten s.ks i (show q.toNat = 129 + (s.progress.toNat - 1) by omega)) (whitenBlock_whitenBlock i _)

end Sys2Proof.Machine
end

section
/-! PROOFS. The family 44_state_machine_commands.md: what a clock edge does, said once (`EdgeEffect`), what an ADVANCE of either
direction does, said once (`exec_advanceOf_cases`), and the laws of runs that follow from the two. -/

namespace Sys2Proof.Machine

/-! ### What a clock edge does -/

@[simp] theorem State.ports_accepted (s : State) : s.ports.accepted = s.result.accepted := rfl
@[simp] theorem State.ports_done (s : State) : s.ports.done = s.result.done := rfl

@[simp] theorem State.ports_fault_iff (s : State) : s.ports.fault = true ↔ s.result.faultCode ≠ 0b00#2 := by
  simp [State.ports, Result.fault]

@[simp] theorem PortInput.cmdField_word (p : PortInput) : cmdField p.word = p.cmd := cmdField_append _ _

@[simp] theorem PortInput.blkField_word (p : PortInput) : blkField p.word = p.blk := blkField_append _ _

/-- The port's first input is executed on the state whose port has moved on (log entry 1). -/
theorem step_of_inputs {s : State} {p : PortInput} {rest : List PortInput} (h : s.inputs = p :: rest) :
    step s = clockEdge exec p { s with inputs := rest } := by
  simp [step, State.nextInput, State.popInput, h]

/-- A silent port is the input `quiet`, and the port stays silent (log entry 1). -/
theorem step_of_no_inputs {s : State} (h : s.inputs = []) : step s = clockEdge exec PortInput.quiet s := by
  have hpop : s.popInput = s := by rw [popInput_eq, h, List.tail_nil, ← h]
  rw [step, hpop, State.nextInput, h, List.headD_nil]

theorem clockEdge_of_rst {p : PortInput} (h : p.rst = true) (s : State) :
    clockEdge exec p s = .next (hardwareReset s) := by
  simp [clockEdge, h]

theorem clockEdge_of_command {p : PortInput} {i : Instr} (h : p.rst = false) (hd : decode p.word = .ok i) (s : State) :
    clockEdge exec p s = exec i s := by
  simp [clockEdge, h, hd]

theorem clockEdge_of_reservedCode {p : PortInput} (h : p.rst = false) (hc : ReservedCode p.cmd) (s : State) :
    clockEdge exec p s = .next (raise .illegalCommand s) := by
  rw [← p.cmdField_word] at hc
  simp [clockEdge, h, decode_of_reservedCode hc]

/-- Every edge answers a next state (44_state_machine_commands.md R190). -/
theorem clockEdge_next (p : PortInput) (s : State) : ∃ t, clockEdge exec p s = .next t := by
  cases hr : p.rst with
  | true => exact ⟨_, clockEdge_of_rst hr s⟩
  | false =>
    cases hd : decode p.word with
    | ok i =>
      rw [clockEdge_of_command hr hd]
      exact exec_command_next (fields_of_decode hd).1 s
    | error e => exact ⟨raise .illegalCommand s, by simp [clockEdge, hr, hd]⟩

/-- The port input `p` takes the engine from `s` to `t`, by `rst` and by the code on `cmd` (44_state_machine_commands.md R205,
30_encoding.md R81); `edgeEffect_of_clockEdge` ties it to `clockEdge`. -/
inductive EdgeEffect (p : PortInput) (s : State) : State → Prop
  | hardwareReset (rst : p.rst = true) : EdgeEffect p s (hardwareReset s)
  | reserved (rst : p.rst = false) (code : ReservedCode p.cmd) : EdgeEffect p s (raise .illegalCommand s)
  | nop (rst : p.rst = false) (code : p.cmd = 0b000#3) : EdgeEffect p s (s.respond Result.pending)
  | reset (rst : p.rst = false) (code : p.cmd = 0b001#3) :
      EdgeEffect p s ((s.setProgress 0).respond Result.pending)
  | load {t : State} (rst : p.rst = false) (code : p.cmd = 0b010#3) (run : exec (.load p.blk) s = .next t) :
      EdgeEffect p s t
  | advance {t : State} (d : Direction) (rst : p.rst = false) (code : p.cmd = 0b100#3 ∨ p.cmd = 0b101#3)
      (run : exec (advanceOf d) s = .next t) : EdgeEffect p s t

/-- Once for all: what an edge can do. -/
theorem edgeEffect_of_clockEdge {p : PortInput} {s t : State} (h : clockEdge exec p s = .next t) :
    EdgeEffect p s t := by
  cases hr : p.rst with
  | true => cases (clockEdge_of_rst hr s).symm.trans h; exact .hardwareReset hr
  | false =>
    have hd := decode_cases p.word
    rw [p.cmdField_word, p.blkField_word] at hd
    obtain ⟨hc, -⟩ | ⟨hc, e⟩ | ⟨hc, e⟩ | ⟨hc, e⟩ | ⟨hc, e⟩ | ⟨hc, e⟩ := hd
    · cases (clockEdge_of_reservedCode hr hc s).symm.trans h; exact .reserved hr hc
    all_goals rw [clockEdge_of_command hr e] at h
    · cases h; exact .nop hr hc
    · cases h; exact .reset hr hc
    · exact .load hr hc h
    · exact .advance .encrypt hr (.inl hc) h
    · exact .advance .decrypt hr (.inr hc) h

theorem edgeEffect_of_step {s t : State} {p : PortInput} {rest : List PortInput} (hin : s.inputs = p :: rest)
    (h : step s = .next t) : EdgeEffect p { s with inputs := rest } t :=
  edgeEffect_of_clockEdge ((step_of_inputs hin).symm.trans h)

/-! ### The clock edge and the commands -/

/-- Settles O5. -/
theorem everyClockEdgeCompletes : Obligations.EveryClockEdgeCompletes :=
  ⟨fun _ => clockEdge_next _ _, fun _ s hi => exec_command_next hi s⟩

/-- Settles O6. -/
theorem stepRunsTheDecodedCommand : Obligations.StepRunsTheDecodedCommand := by
  intro s p rest i hin hrst hd
  rw [step_of_inputs hin, clockEdge_of_command hrst hd]

/-- Settles O7: the quiet port carries the code of NOP. -/
theorem quietPortIsNop : Obligations.QuietPortIsNop := by
  intro s hin
  have hquiet : decode PortInput.quiet.word = .ok .nop := decode_nop 0
  rw [step_of_no_inputs hin, clockEdge_of_command rfl hquiet]
  rfl

/-- Settles O9. -/
theorem reservedCodeRaisesIllegalCommand : Obligations.ReservedCodeRaisesIllegalCommand := by
  intro s p rest hin hrst hcode
  refine ⟨_, ?_, rfl, rfl⟩
  rw [step_of_inputs hin, clockEdge_of_reservedCode hrst hcode]
  rfl

/-- Settles O11. -/
theorem nopWritesNothing : Obligations.NopWritesNothing := fun s => exec_of_effect (.nop s)

/-- Settles O12. -/
theorem resetCommandWritesProgressOnly : Obligations.ResetCommandWritesProgressOnly := fun s => exec_of_effect (.reset s)

theorem State.progress_eq_zero_iff (s : State) : s.progress = 0 ↔ s.progress.toNat = 0 := by simp [BitVec.toNat_eq]

theorem exec_load_of_idle {s : State} (h : s.progress.toNat = 0) (blk : BitVec 128) :
    exec (.load blk) s = .next (((s.setX (Block.ofBits blk)).setProgress 1).respond Result.loaded) :=
  exec_of_effect (.loadAccepted blk (s.progress_eq_zero_iff.mpr h))

theorem exec_load_of_busy {s : State} (h : s.progress.toNat ≠ 0) (blk : BitVec 128) :
    exec (.load blk) s = .next (raise .loadRejected s) :=
  exec_of_effect (.loadRejected blk (mt s.progress_eq_zero_iff.mp h))

/-- Settles O13: the port value is that of the block of the four words. -/
theorem loadIsAcceptedExactlyWhenIdle : Obligations.LoadIsAcceptedExactlyWhenIdle := by
  intro s w0 w1 w2 w3
  have hblk : Block.ofBits (w3 ++ w2 ++ w1 ++ w0) = ⟨w0, w1, w2, w3⟩ := Block.ofBits_toBits ⟨w0, w1, w2, w3⟩
  refine ⟨fun hp => ?_, fun hp => exec_load_of_busy hp _⟩
  rw [exec_load_of_idle hp, hblk]
  rfl

/-! ### What an ADVANCE of either direction does -/

theorem isCommand_advanceOf (d : Direction) : (advanceOf d).isCommand = true := by cases d <;> rfl

theorem advanceOf_eq (d : Direction) : advanceOf d = .advanceEncrypt ∨ advanceOf d = .advanceDecrypt := by
  cases d
  · exact .inl rfl
  · exact .inr rfl

/-- Once for all, whatever the direction: an ADVANCE performs a step or raises IllegalProgress. -/
theorem exec_advanceOf_cases {d : Direction} {s t : State} (h : exec (advanceOf d) s = .next t) :
    StepEffect s t ∨ (135 ≤ s.progress.toNat ∧ t = raise .illegalProgress s) := by
  generalize hi : advanceOf d = i at h
  cases effect_of_exec h with
  | nop | reset | loadAccepted | loadRejected => cases d <;> cases hi
  | encStep hst => exact .inl (stepEffect_of_encStepAt hst)
  | decStep hst => exact .inl (stepEffect_of_decStepAt hst)
  | reservedProgress _ hp => exact .inr ⟨hp, rfl⟩

theorem exec_advanceOf_result {d : Direction} {s t : State} (h : exec (advanceOf d) s = .next t) :
    t.result = advanceResult s.progress.toNat :=
  exec_advance_result (advanceOf_eq d) h

/-- How an ADVANCE moves `progress`, the last rows of the table of 44_state_machine_commands.md R196;
`exec_advanceOf_progress` ties it to `exec`. -/
def advanceProgress (p : Nat) : Nat :=
  if p = 0 then 0 else if p ≤ 133 then p + 1 else if p = 134 then 0 else p

theorem advanceProgress_of_working {p : Nat} (h1 : 1 ≤ p) (h2 : p ≤ 133) : advanceProgress p = p + 1 := by
  rw [advanceProgress, if_neg (by omega), if_pos h2]

theorem exec_advanceOf_progress {d : Direction} {s t : State} (h : exec (advanceOf d) s = .next t) :
    t.progress.toNat = advanceProgress s.progress.toNat := by
  obtain hstep | ⟨hp, rfl⟩ := exec_advanceOf_cases h
  · cases hstep with
    | idle hp => rw [idle_progress, hp]; rfl
    | work b pos le =>
      rw [workStep_progress, advanceProgress_of_working pos (by omega)]
      bv_omega
    | materialize hp => rw [materialize_progress, hp]; rfl
    | terminate hp => rw [terminate_progress, hp]; rfl
  · rw [raise_progress, advanceProgress, if_neg (by omega), if_neg (by omega), if_neg (by omega)]

/-- Only the copy at 133 writes `out` (10_state.md R25). -/
theorem exec_advanceOf_out {d : Direction} {s t : State} (h : exec (advanceOf d) s = .next t) :
    t.out = if s.progress.toNat = 133 then s.x else s.out := by
  obtain hstep | ⟨hp, rfl⟩ := exec_advanceOf_cases h
  · cases hstep with
    | idle hp => rw [if_neg (by omega), idle_out]
    | work b _ le => rw [if_neg (by omega), workStep_out]
    | materialize hp => rw [if_pos hp, materialize_out]
    | terminate hp => rw [if_neg (by omega), terminate_out]
  · rw [if_neg (by omega), raise_out]

/-- At 134 an ADVANCE is the terminal step (44_state_machine_commands.md R198). -/
theorem exec_advanceOf_terminal {d : Direction} {s t : State} (hp : s.progress.toNat = 134)
    (h : exec (advanceOf d) s = .next t) : t = terminate s := by
  obtain hstep | ⟨hq, -⟩ := exec_advanceOf_cases h
  · cases hstep with
    | idle hq => omega
    | work b _ le => omega
    | materialize hq => omega
    | terminate => rfl
  · omega

/-- Between 1 and 133 an ADVANCE moves `progress` by one and reports `Pending`. -/
theorem exec_advanceOf_working {d : Direction} {s t : State} (h1 : 1 ≤ s.progress.toNat) (h2 : s.progress.toNat ≤ 133)
    (h : exec (advanceOf d) s = .next t) : t.progress.toNat = s.progress.toNat + 1 ∧ t.result = Result.pending := by
  rw [exec_advanceOf_progress h, advanceProgress_of_working h1 h2, exec_advanceOf_result h, advanceResult,
    if_neg (by omega), if_neg (by omega)]
  exact ⟨rfl, rfl⟩

/-! ### The step that `progress` selects -/

/-- ADVANCE_ENCRYPT is the row whose selector holds (44_state_machine_commands.md R194). -/
theorem exec_advanceEncrypt_eq_encRow {i : Instr} {s : State} (hi : i ∈ encRows)
    (h : i.wellFormedAt s.progress = true) : exec .advanceEncrypt s = exec i s := by
  obtain ⟨st, hst, rfl⟩ := (wellFormedAt_encRow_iff hi _).mp h
  rw [exec_advanceEncrypt_of_selected hst, exec_encRow_of_selected hst]

/-- ADVANCE_DECRYPT is the row whose selector holds (44_state_machine_commands.md R195). -/
theorem exec_advanceDecrypt_eq_decRow {i : Instr} {s : State} (hi : i ∈ decRows)
    (h : i.wellFormedAt s.progress = true) : exec .advanceDecrypt s = exec i s := by
  obtain ⟨st, hst, rfl⟩ := (wellFormedAt_decRow_iff hi _).mp h
  rw [exec_advanceDecrypt_of_selected hst, exec_decRow_of_selected hst]

/-- At a legal `progress` an ADVANCE completes without a fault, with `done` at 134 alone (44_state_machine_commands.md R190,
R198). -/
theorem exec_advanceOf_completes (d : Direction) {s : State} (hp : s.progress.toNat ≤ 134) :
    ∃ t, exec (advanceOf d) s = .next t ∧ t.result.accepted = false ∧
      (t.result.done = true ↔ s.progress.toNat = 134) ∧ t.result.faultCode = 0b00#2 := by
  obtain ⟨t, ht⟩ := exec_command_next (isCommand_advanceOf d) s
  refine ⟨t, ht, ?_⟩
  rw [exec_advanceOf_result ht, advanceResult_accepted, advanceResult_done, advanceResult_faultCode,
    if_neg (by omega)]
  exact ⟨rfl, Iff.rfl, rfl⟩

/-- Settles O14: each range is the selector of its row. -/
theorem advanceEncryptPerformsTheSelectedStep : Obligations.AdvanceEncryptPerformsTheSelectedStep := by
  intro s
  have row {i : Instr} (hi : i ∈ encRows) (h : i.wellFormedAt s.progress = true) :
      exec .advanceEncrypt s = exec i s := exec_advanceEncrypt_eq_encRow hi h
  refine ⟨fun h => row (i := .eIdle) (by decide) ?_, fun h => row (i := .eRound) (by decide) ?_,
    fun h => row (i := .eRoundL) (by decide) ?_, fun h => row (i := .eWhiten) (by decide) ?_,
    fun h => row (i := .eMaterialize) (by decide) ?_, fun h => row (i := .eTerminate) (by decide) ?_,
    exec_advanceOf_completes .encrypt, exec_advanceEncrypt_of_reserved⟩
  all_goals simp [Instr.wellFormedAt, h]

/-- Settles O15: each range is the selector of its row. -/
theorem advanceDecryptPerformsTheSelectedStep : Obligations.AdvanceDecryptPerformsTheSelectedStep := by
  intro s
  have row {i : Instr} (hi : i ∈ decRows) (h : i.wellFormedAt s.progress = true) :
      exec .advanceDecrypt s = exec i s := exec_advanceDecrypt_eq_decRow hi h
  refine ⟨fun h => row (i := .dIdle) (by decide) ?_, fun h => row (i := .dWhiten) (by decide) ?_,
    fun h => row (i := .dRound) (by decide) ?_, fun h => row (i := .dLinvRound) (by decide) ?_,
    fun h => row (i := .dMaterialize) (by decide) ?_, fun h => row (i := .dTerminate) (by decide) ?_,
    exec_advanceOf_completes .decrypt, exec_advanceDecrypt_of_reserved⟩
  all_goals simp [Instr.wellFormedAt, h]

/-! ### The laws of a clock edge -/

theorem exec_load_progress {blk : BitVec 128} {s t : State} (h : exec (.load blk) s = .next t) :
    t.progress.toNat = if s.progress.toNat = 0 then 1 else s.progress.toNat := by
  by_cases hp : s.progress.toNat = 0
  · cases (exec_load_of_idle hp blk).symm.trans h; rw [if_pos hp]; rfl
  · cases (exec_load_of_busy hp blk).symm.trans h; rw [if_neg hp]; rfl

/-- Settles O44: the table's rows are the cases of an edge. -/
theorem progressTransitionLaw : Obligations.ProgressTransitionLaw := by
  intro s t p rest hin h
  cases edgeEffect_of_step hin h with
  | hardwareReset hrst => simp [hrst]
  | reserved hrst hcode => obtain hc | hc | hc := hcode <;> simp [hrst, hc]
  | nop hrst hc => simp [hrst, hc]
  | reset hrst hc => simp [hrst, hc]
  | load hrst hc run => simp [hrst, hc, exec_load_progress run]
  | advance d hrst hc run =>
    have hreset : p.cmd ≠ 0b001#3 := by rintro e; simp [e] at hc
    have hload : p.cmd ≠ 0b010#3 := by rintro e; simp [e] at hc
    simp only [hrst, hreset, hload, hc, exec_advanceOf_progress run, advanceProgress, Bool.false_eq_true, if_false,
      if_true]

/-- Settles O10: the fault code of each case of an edge. -/
theorem faultCodesNameTheirCause : Obligations.FaultCodesNameTheirCause := by
  intro s t p rest hin h
  simp only [State.ports_accepted, State.ports_fault_iff]
  cases edgeEffect_of_step hin h with
  | hardwareReset hrst => simp [hrst, Result.pending]
  | reserved hrst hcode => obtain hc | hc | hc := hcode <;> simp [hrst, hc, resultOf, faultCodeOf]
  | nop hrst hc => simp [hrst, hc, Result.pending]
  | reset hrst hc => simp [hrst, hc, Result.pending]
  | load hrst hc run =>
    have hr := exec_load_result run
    by_cases hp : s.progress.toNat = 0 <;> simp [hrst, hc, hr, hp, Result.loaded, resultOf, faultCodeOf]
  | advance d hrst hc run =>
    have hr := exec_advanceOf_result run
    by_cases hp : 135 ≤ s.progress.toNat <;> obtain hc | hc := hc <;> simp [hrst, hc, hr, hp]

/-- An edge shows `done` for the terminal step alone (44_state_machine_commands.md R198). -/
theorem edgeEffect_done_iff {p : PortInput} {s t : State} (h : EdgeEffect p s t) : t.result.done = true ↔
    p.rst = false ∧ (p.cmd = 0b100#3 ∨ p.cmd = 0b101#3) ∧ s.progress.toNat = 134 := by
  cases h with
  | hardwareReset hrst => simp [hrst, Result.pending]
  | reserved _ hcode => obtain hc | hc | hc := hcode <;> simp [hc, resultOf]
  | nop _ hc => simp [hc, Result.pending]
  | reset _ hc => simp [hc, Result.pending]
  | load _ hc run =>
    rw [exec_load_result run]
    split <;> simp [hc, Result.loaded, resultOf]
  | advance d hrst hc run => simp [hrst, hc, exec_advanceOf_result run]

/-- So an edge that shows `done` performed the terminal step. -/
theorem edgeEffect_eq_terminate {p : PortInput} {s t : State} (h : EdgeEffect p s t) (hdone : t.result.done = true) :
    t = terminate s := by
  obtain ⟨hrst, hcode, hp⟩ := (edgeEffect_done_iff h).mp hdone
  cases h with
  | hardwareReset hrst' => simp [hrst] at hrst'
  | reserved _ hc => obtain hc | hc | hc := hc <;> simp [hc] at hcode
  | nop _ hc => simp [hc] at hcode
  | reset _ hc => simp [hc] at hcode
  | load _ hc => simp [hc] at hcode
  | advance d _ _ run => exact exec_advanceOf_terminal hp run

/-- Settles O57: an edge that shows `done` performed the terminal step, which leaves the engine idle. -/
theorem doneMeansIdleAndReadyForLoad : Obligations.DoneMeansIdleAndReadyForLoad := by
  intro s t p rest hin h
  have hedge := edgeEffect_of_step hin h
  have hiff := edgeEffect_done_iff hedge
  refine ⟨hiff, fun hdone => ?_⟩
  obtain rfl := edgeEffect_eq_terminate hedge hdone
  exact ⟨rfl, rfl, rfl, fun blk => ⟨_, exec_load_of_idle rfl blk, rfl⟩⟩

/-! ### Commands that leave no trace -/

/-- No command reads the result bits of the one before (10_state.md R27). -/
theorem exec_respond {i : Instr} (hi : i.isCommand = true) (s : State) (r : Result) :
    exec i (s.respond r) = exec i s := by
  obtain ⟨t, ht⟩ := exec_command_next hi s
  have heff := effect_of_exec ht
  calc exec i (s.respond r) = .next { t with inputs := s.inputs, resetDraws := s.resetDraws } :=
        exec_of_effect (heff.withOwnFields r s.inputs s.resetDraws)
    _ = exec i s := (exec_of_effect (heff.withOwnFields s.result s.inputs s.resetDraws)).symm

theorem runCommands_respond {i : Instr} (hi : i.isCommand = true) (is : List Instr) (s : State) (r : Result) :
    runCommands (i :: is) (s.respond r) = runCommands (i :: is) s := by
  rw [runCommands, exec_respond hi, runCommands]

/-- Settles O49: a rejected LOAD writes result bits only, and the next command reads none. -/
theorem rejectedLoadIsInvisible : Obligations.RejectedLoadIsInvisible := by
  intro s blk hp
  have hload := exec_load_of_busy hp blk
  refine ⟨⟨_, hload, rfl, rfl, rfl, rfl⟩, fun i is hi => ?_⟩
  rw [runCommands_cons _ hload, raise, runCommands_respond hi]

/-- Settles O50, by induction on the number of NOPs: each writes result bits only. -/
theorem nopsAreInvisible : Obligations.NopsAreInvisible := by
  intro n s i is hi
  induction n generalizing s with
  | zero => rfl
  | succ n ih =>
    have hnop : exec .nop s = .next (s.respond Result.pending) := exec_of_effect (.nop s)
    rw [List.replicate_succ, List.cons_append, runCommands_cons _ hnop, ih, runCommands_respond hi]

/-! ### The length of a block -/

/-- `ADVANCE` commands that end below 135 move `progress` by one each and show no `done`. -/
theorem runCommands_advances {ds : List Direction} {s : State} (h1 : 1 ≤ s.progress.toNat)
    (h2 : s.progress.toNat + ds.length ≤ 134) (hdone : s.result.done = false) :
    ∃ t, runCommands (ds.map advanceOf) s = .next t ∧ t.progress.toNat = s.progress.toNat + ds.length ∧
      t.result.done = false := by
  induction ds generalizing s with
  | nil => exact ⟨s, rfl, rfl, hdone⟩
  | cons d ds ih =>
    rw [List.length_cons] at h2
    obtain ⟨t, ht⟩ := exec_command_next (isCommand_advanceOf d) s
    obtain ⟨hp, hr⟩ := exec_advanceOf_working h1 (by omega) ht
    obtain ⟨u, hu, hup, hud⟩ := ih (s := t) (by omega) (by omega) (by rw [hr]; rfl)
    refine ⟨u, ?_, ?_, hud⟩
    · rw [List.map_cons, runCommands_cons _ ht, hu]
    · rw [hup, hp, List.length_cons]
      omega

/-- A LOAD to an idle engine and `n` ≤ 133 ADVANCE commands. -/
theorem runCommands_load_advances {ds : List Direction} {s : State} (hp : s.progress.toNat = 0) (blk : BitVec 128)
    (hlen : ds.length ≤ 133) : ∃ t, runCommands (.load blk :: ds.map advanceOf) s = .next t ∧
      t.progress.toNat = 1 + ds.length ∧ t.result.done = false := by
  rw [runCommands_cons _ (exec_load_of_idle hp blk)]
  exact runCommands_advances (s := ((s.setX (Block.ofBits blk)).setProgress 1).respond Result.loaded) (le_refl 1)
    (show 1 + ds.length ≤ 134 by omega) rfl

/-- Settles O48: the last of 134 ADVANCE commands finds `progress` 134 and is the terminal step. -/
theorem blockTakes134Advances : Obligations.BlockTakes134Advances := by
  intro s blk ds hp
  refine ⟨runCommands_load_advances hp blk, fun hlen => ?_⟩
  obtain rfl | ⟨init, d, rfl⟩ := ds.eq_nil_or_concat
  · cases hlen
  rw [List.concat_eq_append, List.length_append, List.length_singleton] at hlen
  obtain ⟨t, ht, htp, -⟩ := runCommands_load_advances (ds := init) hp blk (by omega)
  obtain ⟨u, hu⟩ := exec_command_next (isCommand_advanceOf d) t
  obtain rfl := exec_advanceOf_terminal (by omega) hu
  refine ⟨terminate t, ?_, rfl, rfl⟩
  rw [List.concat_eq_append, List.map_append, ← List.cons_append, runCommands_append _ ht]
  exact runCommands_cons [] hu

/-! ### Two engines -/

/-- The two engines agree on all that an ADVANCE reads (44_state_machine_commands.md R203). -/
structure Agree (s u : State) : Prop where
  progress : s.progress = u.progress
  x : s.x = u.x
  ks : s.ks = u.ks

theorem encEffect_x_of_agree {s u : State} (h : Agree s u) (st : EncStep) : (encEffect st s).x = (encEffect st u).x := by
  cases st with
  | idle => exact h.x
  | round k => simp only [encEffect, encRound, workStep_x, h.x, h.ks]
  | roundL k => simp only [encEffect, encRoundL, workStep_x, h.x, h.ks]
  | whiten i => simp only [encEffect, whiten, workStep_x, h.x, h.ks]
  | materialize => exact h.x
  | terminate => exact h.x

theorem decEffect_x_of_agree {s u : State} (h : Agree s u) (st : DecStep) : (decEffect st s).x = (decEffect st u).x := by
  cases st with
  | idle => exact h.x
  | whiten i => simp only [decEffect, whiten, workStep_x, h.x, h.ks]
  | round k => simp only [decEffect, decRound, workStep_x, h.x, h.ks]
  | linvRound k => simp only [decEffect, decLinvRound, workStep_x, h.x, h.ks]
  | materialize => exact h.x
  | terminate => exact h.x

/-- A reserved `progress` selects no step, and the condition writes nothing (60_exceptions.md R224). -/
theorem exec_advanceOf_x_of_reserved {d : Direction} {s t : State} (hp : 135 ≤ s.progress.toNat)
    (h : exec (advanceOf d) s = .next t) : t.x = s.x := by
  obtain hstep | ⟨-, rfl⟩ := exec_advanceOf_cases h
  · have hle := hstep.result_eq.1
    omega
  · exact raise_x _ _

/-- Both engines select the same step, or both find a reserved `progress` and keep `x`. -/
theorem exec_advanceOf_x_of_agree {d : Direction} {s u t v : State} (h : Agree s u)
    (hs : exec (advanceOf d) s = .next t) (hu : exec (advanceOf d) u = .next v) : t.x = v.x := by
  by_cases hp : s.progress.toNat ≤ 134
  · cases d with
    | encrypt =>
      obtain ⟨st, hst⟩ := Option.isSome_iff_exists.mp ((encStepAt_isSome_iff _).mpr hp)
      have hst' : encStepAt u.progress = some st := h.progress ▸ hst
      cases (exec_advanceEncrypt_of_selected hst).symm.trans hs
      cases (exec_advanceEncrypt_of_selected hst').symm.trans hu
      exact encEffect_x_of_agree h st
    | decrypt =>
      obtain ⟨st, hst⟩ := Option.isSome_iff_exists.mp ((decStepAt_isSome_iff _).mpr hp)
      have hst' : decStepAt u.progress = some st := h.progress ▸ hst
      cases (exec_advanceDecrypt_of_selected hst).symm.trans hs
      cases (exec_advanceDecrypt_of_selected hst').symm.trans hu
      exact decEffect_x_of_agree h st
  · have hps : 135 ≤ s.progress.toNat := by omega
    have hpu : 135 ≤ u.progress.toNat := h.progress ▸ hps
    rw [exec_advanceOf_x_of_reserved hps hs, exec_advanceOf_x_of_reserved hpu hu, h.x]

/-- Engines that agree still agree after the same ADVANCE. -/
theorem exec_advanceOf_agree {d : Direction} {s u t v : State} (h : Agree s u)
    (hs : exec (advanceOf d) s = .next t) (hu : exec (advanceOf d) u = .next v) : Agree t v where
  progress := BitVec.eq_of_toNat_eq (by rw [exec_advanceOf_progress hs, exec_advanceOf_progress hu, h.progress])
  x := exec_advanceOf_x_of_agree h hs hu
  ks := by rw [exec_ks hs, exec_ks hu, h.ks]

theorem exec_advanceOf_result_of_agree {d : Direction} {s u t v : State} (h : Agree s u)
    (hs : exec (advanceOf d) s = .next t) (hu : exec (advanceOf d) u = .next v) : t.result = v.result := by
  rw [exec_advanceOf_result hs, exec_advanceOf_result hu, h.progress]

/-- Settles O51. -/
theorem directionIsNotState : Obligations.DirectionIsNotState := by
  intro d s u t v hprogress hx hks hs hu
  have h : Agree s u := ⟨hprogress, hx, hks⟩
  have htv := exec_advanceOf_agree h hs hu
  refine ⟨htv.progress, htv.x, exec_advanceOf_result_of_agree h hs hu, fun hp => ?_, fun hp => ?_⟩
  · rw [exec_advanceOf_out hs, exec_advanceOf_out hu, if_pos hp, if_pos (hprogress ▸ hp)]
    exact ⟨rfl, rfl⟩
  · rw [exec_advanceOf_out hs, exec_advanceOf_out hu, if_neg hp, if_neg (hprogress ▸ hp)]
    exact ⟨rfl, rfl⟩

/-! ### Abandonment -/

theorem runCommands_ks {is : List Instr} {s t : State} (h : runCommands is s = .next t) : t.ks = s.ks := by
  induction is generalizing s with
  | nil => cases h; rfl
  | cons i is ih =>
    cases hi : exec i s with
    | next u =>
      rw [runCommands_cons is hi] at h
      rw [ih h, exec_ks hi]
    | fault f => cases f
    | refused f => simp [runCommands, hi] at h

/-- Two engines that agree on all but `out` end their block with the same `out`, since the copy at 133 writes it whole. Where
the copy lies behind them, at 134, they have to agree on `out` already. -/
theorem runCommands_advances_agree {ds : List Direction} {s u : State} (h : Agree s u) (h1 : 1 ≤ s.progress.toNat)
    (h2 : s.progress.toNat ≤ 134) (hlen : s.progress.toNat + ds.length = 135)
    (hout : s.progress.toNat = 134 → s.out = u.out) :
    ∃ t v, runCommands (ds.map advanceOf) s = .next t ∧ runCommands (ds.map advanceOf) u = .next v ∧
      t.out = v.out ∧ t.x = v.x ∧ t.progress = v.progress ∧ t.result = v.result := by
  induction ds generalizing s u with
  | nil => simp only [List.length_nil] at hlen; omega
  | cons d ds ih =>
    rw [List.length_cons] at hlen
    obtain ⟨t, ht⟩ := exec_command_next (isCommand_advanceOf d) s
    obtain ⟨v, hv⟩ := exec_command_next (isCommand_advanceOf d) u
    have htv := exec_advanceOf_agree h ht hv
    rw [List.map_cons, runCommands_cons _ ht, runCommands_cons _ hv]
    by_cases hp : s.progress.toNat = 134
    · obtain rfl : ds = [] := List.length_eq_zero_iff.mp (by omega)
      have hkept : t.out = v.out := by
        rw [exec_advanceOf_terminal hp ht, exec_advanceOf_terminal (h.progress ▸ hp) hv, terminate_out, terminate_out,
          hout hp]
      exact ⟨t, v, rfl, rfl, hkept, htv.x, htv.progress, exec_advanceOf_result_of_agree h ht hv⟩
    · obtain ⟨htp, -⟩ := exec_advanceOf_working h1 (by omega) ht
      refine ih htv (by omega) (by omega) (by omega) fun htp' => ?_
      have hcopy : s.progress.toNat = 133 := by omega
      rw [exec_advanceOf_out ht, exec_advanceOf_out hv, if_pos hcopy, if_pos (h.progress ▸ hcopy), h.x]

/-- What RESET and LOAD leave of an engine, whatever it was doing. -/
theorem runCommands_reset_load (s : State) (blk : BitVec 128) (is : List Instr) :
    runCommands (.reset :: .load blk :: is) s =
      runCommands is { s with progress := 1, x := Block.ofBits blk, result := Result.loaded } := by
  have hreset : exec .reset s = .next ((s.setProgress 0).respond Result.pending) := exec_of_effect (.reset s)
  have hload := exec_load_of_idle (s := (s.setProgress 0).respond Result.pending) rfl blk
  rw [runCommands_cons _ hreset, runCommands_cons _ hload]
  rfl

/-- Settles O52: after RESET and LOAD the two engines agree on all that a block reads. -/
theorem abandonmentLeaksNothing : Obligations.AbandonmentLeaksNothing := by
  intro s u s1 before blk ds hks hbefore hlen
  have hks1 : s1.ks = u.ks := (runCommands_ks hbefore).trans hks.symm
  rw [runCommands_reset_load, runCommands_reset_load]
  exact runCommands_advances_agree ⟨rfl, rfl, hks1⟩ (le_refl 1) (show 1 ≤ 134 by decide)
    (show 1 + ds.length = 135 by omega) (fun h => absurd h (show 1 ≠ 134 by decide))

/-! ### A run and the run back -/

/-- On a legal `progress` no command raises a fault (60_exceptions.md R224), and every command keeps it legal. -/
theorem goodRun_of_progressLegal {is : List Instr} {s : State} (his : ∀ i ∈ is, i.isCommand = true)
    (hs : ProgressLegal s) : GoodRun is s := by
  induction is generalizing s with
  | nil => trivial
  | cons i is ih =>
    obtain ⟨hi, his⟩ := List.forall_mem_cons.mp his
    obtain ⟨t, ht⟩ := exec_command_next hi s
    have hp : ¬ 135 ≤ s.progress.toNat := Nat.not_le.mpr (Nat.lt_succ_of_le hs)
    obtain ⟨-, -, hcode, -⟩ := resultBitsFollowCommandAndProgress i s t hi ht
    rw [if_neg fun h => hp h.2] at hcode
    exact ⟨t, ht, by rw [Result.fault, hcode]; rfl, ih his (exec_keeps_progressLegal hs ht)⟩

theorem goodRun_block (d : Direction) (blk : BitVec 128) {s : State} (hs : s.progress.toNat = 0) :
    GoodRun (.load blk :: List.replicate 134 (advanceOf d)) s := by
  refine goodRun_of_progressLegal (List.forall_mem_cons.mpr ⟨rfl, fun i hi => ?_⟩) (hs.trans_le (Nat.zero_le _))
  rw [List.eq_of_mem_replicate hi]
  exact isCommand_advanceOf d

/-- The whole-block function of a direction; `runCommands_cipher` ties it to the run. -/
def cipher : Direction → Memory → Block → Block
  | .encrypt => enc
  | .decrypt => dec

theorem cipher_cipher {d e : Direction} (h : d ≠ e) (ks : Memory) (P : Block) :
    cipher e ks (cipher d ks P) = P := by
  cases d <;> cases e
  · exact absurd rfl h
  · exact dec_enc ks P
  · exact enc_dec ks P
  · exact absurd rfl h

theorem runCommands_cipher (d : Direction) {s : State} (hs : s.progress.toNat = 0) (P : Block) :
    runCommands (.load P.toBits :: List.replicate 134 (advanceOf d)) s = .next { s with
      progress := 0, x := cipher d s.ks P, out := cipher d s.ks P, result := ⟨false, true, 0b00#2⟩ } := by
  cases d with
  | encrypt => exact (encryptionRunComputesEnc s P hs).2
  | decrypt => exact (decryptionRunComputesDec s P hs).2

/-- Settles O56: the second run finds the engine idle with the first run's `out`, and ENC and DEC undo each other. -/
theorem roundTripReturnsTheBlock : Obligations.RoundTripReturnsTheBlock := by
  intro s P d e hs hde
  exact ⟨_, _, runCommands_cipher d hs P, runCommands_cipher e rfl _, cipher_cipher hde s.ks P, rfl, rfl,
    goodRun_block d _ hs, goodRun_block e _ rfl⟩

end Sys2Proof.Machine
end

section
/-! PROOFS. The family 60_exceptions.md: hardware reset wins over any command, and a run of clock edges is good exactly
while no edge of it raises a fault (`FaultingEdge`); the edge of a command's word is the command. -/

namespace Sys2Proof.Machine

/-- Settles O8. -/
theorem hardwareResetWinsOverAnyCommand : Obligations.HardwareResetWinsOverAnyCommand := by
  intro s p rest hin hrst
  rw [step_of_inputs hin, clockEdge_of_rst hrst]
  rfl

/-! ### The edges that raise a fault -/

/-- With `rst` low, a reserved code (60_exceptions.md R223), or an ADVANCE at a reserved `progress` (R224);
`step_present_fault_iff` ties it to what the edge shows. -/
def FaultingEdge (p : PortInput) (s : State) : Prop :=
  p.rst = false ∧ (ReservedCode p.cmd ∨ ((p.cmd = 0b100#3 ∨ p.cmd = 0b101#3) ∧ 135 ≤ s.progress.toNat))

theorem Result.fault_eq_true_iff {r : Result} (h : r.faultCode ≠ 0b11#2) :
    r.fault = true ↔ r.faultCode = 0b01#2 ∨ r.faultCode = 0b10#2 := by
  rw [Result.fault, bne_iff_ne]
  bv_omega

/-- The port `fault` shows one of the two causes, and no other (60_exceptions.md R226). -/
theorem step_present_fault_iff {s t : State} {p : PortInput} (h : step (s.present p) = .next t) :
    t.result.fault = true ↔ FaultingEdge p s := by
  obtain ⟨hillegalCommand, hillegalProgress, -, hdriven, -⟩ := faultCodesNameTheirCause _ t p s.inputs rfl h
  rw [Result.fault_eq_true_iff hdriven, hillegalCommand, hillegalProgress, ← and_or_left]
  rfl

/-! ### Good runs, edge by edge -/

theorem step_present_next (s : State) (p : PortInput) : ∃ t, step (s.present p) = .next t := clockEdge_next p s

theorem runEdges_next (ps : List PortInput) (s : State) : ∃ t, runEdges ps s = .next t := by
  induction ps generalizing s with
  | nil => exact ⟨s, rfl⟩
  | cons p ps ih =>
    obtain ⟨t, ht⟩ := step_present_next s p
    rw [runEdges_cons ps ht]
    exact ih t

theorem goodEdges_append {ps : List PortInput} {s t : State} (qs : List PortInput) (h : runEdges ps s = .next t) :
    GoodEdges (ps ++ qs) s ↔ GoodEdges ps s ∧ GoodEdges qs t := by
  induction ps generalizing s with
  | nil => cases h; simp
  | cons p ps ih =>
    obtain ⟨u, hu⟩ := step_present_next s p
    rw [runEdges_cons ps hu] at h
    rw [List.cons_append, goodEdges_cons _ hu, goodEdges_cons _ hu, ih h, and_assoc]

/-- One edge is a good run exactly when it raises no fault. -/
theorem goodEdges_singleton_iff (p : PortInput) (s : State) : GoodEdges [p] s ↔ ¬ FaultingEdge p s := by
  obtain ⟨t, ht⟩ := step_present_next s p
  rw [goodEdges_cons [] ht, ← step_present_fault_iff ht, Bool.not_eq_true, and_iff_left (goodEdges_nil t)]

/-- No good run holds an edge that raises a fault, wherever it stands. -/
theorem not_goodEdges_of_faultingEdge {ps : List PortInput} {p : PortInput} {s t : State} (qs : List PortInput)
    (h : runEdges ps s = .next t) (hp : FaultingEdge p t) : ¬ GoodEdges (ps ++ p :: qs) s := by
  intro hgood
  obtain ⟨u, hu, hfault, -⟩ := ((goodEdges_append (p :: qs) h).mp hgood).2
  rw [(step_present_fault_iff hu).mpr hp] at hfault
  cases hfault

/-! ### A command and its word -/

/-- The edge at which a command's word is driven executes the command (30_encoding.md R82). -/
theorem step_present_encode {i : Instr} (hi : i.isCommand = true) (s : State) :
    step (s.present (PortInput.ofWord (encode i))) = exec i s := by
  have hd : decode (PortInput.ofWord (encode i)).word = .ok i := by
    rw [PortInput.word_ofWord, decode_encode hi]
  rw [step_present, clockEdge_of_command rfl hd]

theorem goodRun_iff_goodEdges {is : List Instr} (his : ∀ i ∈ is, i.isCommand = true) (s : State) :
    GoodRun is s ↔ GoodEdges (is.map fun i => PortInput.ofWord (encode i)) s := by
  induction is generalizing s with
  | nil => exact Iff.rfl
  | cons i is ih =>
    obtain ⟨hi, his⟩ := List.forall_mem_cons.mp his
    obtain ⟨t, ht⟩ := exec_command_next hi s
    rw [List.map_cons, goodRun_cons is ht, goodEdges_cons _ ((step_present_encode hi s).trans ht), ih his t]

/-- Settles O59: the run up to the edge answers a state, and the edge raises a fault there or the run stays good. -/
theorem goodRunsAreExactlyTheFaultFreeOnes : Obligations.GoodRunsAreExactlyTheFaultFreeOnes := by
  refine ⟨?oneMoreEdge, ?reservedCode, fun is s his => goodRun_iff_goodEdges his s⟩
  case oneMoreEdge =>
    intro before p s t hrun hgood
    rw [goodEdges_append [p] hrun, goodEdges_singleton_iff, and_iff_right hgood]
    rfl
  case reservedCode =>
    intro before after p s hrst hcode
    obtain ⟨t, hrun⟩ := runEdges_next before s
    exact not_goodEdges_of_faultingEdge after hrun ⟨hrst, .inl hcode⟩

end Sys2Proof.Machine
end
